-- ==== Sys2Proof/Word.lean ====
section
/-!
DEFINITION. The values the block moves: bytes, the digital word, the STATE word, the event word, the
6-byte frame and the Controller State (spec/10_state.md R20, spec/00_scope.md R11, R12).
-/

namespace Sys2Proof

/-- A byte of the command channel, the response channel or a frame (R12). -/
abbrev Byte := BitVec 8

/-- The 16-bit digital word and the 16-bit button set (R20, R70). -/
abbrev DigitalWord := BitVec 16

/-- The 64-bit packed Controller State of the two channels (R65). -/
abbrev StateWord := BitVec 64

/-- The 16-bit word the event port presents (R73). -/
abbrev EventWord := BitVec 16

/-- A frame: "exactly 6 unsigned bytes", `f0` to `f5` being frame[0] to frame[5] (R42). -/
structure Frame where
  f0 : Byte
  f1 : Byte
  f2 : Byte
  f3 : Byte
  f4 : Byte
  f5 : Byte
  deriving DecidableEq, Repr

/-- The value of a D-pad axis: negative, centred or positive (R20, slots 6 and 7). -/
inductive Ternary where
  | neg
  | zero
  | pos
  deriving DecidableEq, Repr

/-- A Controller State (R20). The field of slot n is `a<n>`, with exactly the width R20 gives it, so a
value outside a slot's range cannot be written (R22: condition 1 holds by construction). Slot names:
0 left-stick-X, 1 left-stick-Y, 2 left-trigger, 3 right-stick-X, 4 right-stick-Y, 5 right-trigger,
6 dpad-X, 7 dpad-Y (spec/90_conflicts.md C1). `buttons` bit i set: the flag at position i is set (R21). -/
structure ControllerState where
  a0 : BitVec 6
  a1 : BitVec 6
  a2 : BitVec 5
  a3 : BitVec 5
  a4 : BitVec 5
  a5 : BitVec 5
  a6 : Ternary
  a7 : Ternary
  buttons : DigitalWord
  deriving DecidableEq, Repr

end Sys2Proof
end

