-- ==== Sys2Proof/Machine/Operands.lean ====
section
/-!
DEFINITION. The two operand kinds (spec/30_encoding.md R64 to R68): a frame of six bytes and a STATE
word, with the byte orders of spec/20_memory.md R42 and R45, and Pack and Unpack (R66).
-/

namespace Sys2Proof

namespace Ternary

/-- The axis value: -1, 0 or 1 (R20). -/
def toInt : Ternary → Int
  | neg => -1
  | zero => 0
  | pos => 1

/-- `d2(v)`: 2-bit two's complement (R66). -/
def toField : Ternary → BitVec 2
  | neg => 0b11#2
  | zero => 0b00#2
  | pos => 0b01#2

/-- The ternary value of a D-pad field; the field `10` has none (R66). -/
def ofField (v : BitVec 2) : Option Ternary :=
  if v = 0b00#2 then some zero
  else if v = 0b01#2 then some pos
  else if v = 0b11#2 then some neg
  else none

/-- The ternary value of an integer; none outside [-1,1] (R20). -/
def ofInt (v : Int) : Option Ternary :=
  if v = -1 then some neg else if v = 0 then some zero else if v = 1 then some pos else none

/-- `b2i(p) - b2i(n)` for the positive and the negative direction's bit (R108). -/
def ofPair (p n : Bool) : Ternary :=
  match p, n with
  | true, false => pos
  | false, true => neg
  | true, true => zero
  | false, false => zero

end Ternary

namespace ControllerState

/-- `axes[slot]` as a mathematical integer (R12, R20). -/
def axis (c : ControllerState) (slot : Fin 8) : Int :=
  match slot with
  | 0 => c.a0.toNat
  | 1 => c.a1.toNat
  | 2 => c.a2.toNat
  | 3 => c.a3.toNat
  | 4 => c.a4.toNat
  | 5 => c.a5.toNat
  | 6 => c.a6.toInt
  | 7 => c.a7.toInt

end ControllerState

/-- The six bytes of a frame in channel order, frame[0] first (R42). -/
def Frame.bytes (f : Frame) : List Byte :=
  [f.f0, f.f1, f.f2, f.f3, f.f4, f.f5]

/-- The wire digital word `(frame[4]<<8) | frame[5]`: frame[4] is the high byte (R44, R70). -/
def Frame.wireWord (f : Frame) : DigitalWord :=
  f.f4 ++ f.f5

/-- Byte k of the STATE word in order of arrival: `STATE[63-8k : 56-8k]` (R45). -/
def stateByte (w : StateWord) (k : Nat) : Byte :=
  w.extractLsb' (56 - 8 * k) 8

/-- The eight bytes of a STATE word in channel order, big-endian (R45). -/
def stateBytes (w : StateWord) : List Byte :=
  [stateByte w 0, stateByte w 1, stateByte w 2, stateByte w 3,
   stateByte w 4, stateByte w 5, stateByte w 6, stateByte w 7]

/-- The STATE word of eight bytes in order of arrival, big-endian (R45). -/
def stateOfBytes (b0 b1 b2 b3 b4 b5 b6 b7 : Byte) : StateWord :=
  b0 ++ b1 ++ b2 ++ b3 ++ b4 ++ b5 ++ b6 ++ b7

/-- The frame at the head of a byte list, and the rest; none when fewer than six bytes are there. -/
def takeFrame : List Byte → Option (Frame × List Byte)
  | b0 :: b1 :: b2 :: b3 :: b4 :: b5 :: rest => some (⟨b0, b1, b2, b3, b4, b5⟩, rest)
  | _ => none

/-- The STATE word at the head of a byte list, and the rest; none when fewer than eight bytes are
there. -/
def takeState : List Byte → Option (StateWord × List Byte)
  | b0 :: b1 :: b2 :: b3 :: b4 :: b5 :: b6 :: b7 :: rest =>
    some (stateOfBytes b0 b1 b2 b3 b4 b5 b6 b7, rest)
  | _ => none

/-- STATE field A6, bits 33:32 (R65). -/
def fieldA6 (w : StateWord) : BitVec 2 := w.extractLsb' 32 2

/-- STATE field A7, bits 35:34 (R65). -/
def fieldA7 (w : StateWord) : BitVec 2 := w.extractLsb' 34 2

/-- `Pack(s)` (R66): the fields of R65 with bits 47:36 zero (R67). -/
def pack (c : ControllerState) : StateWord :=
  c.buttons ++ 0#12 ++ c.a7.toField ++ c.a6.toField
    ++ c.a5 ++ c.a4 ++ c.a3 ++ c.a2 ++ c.a1 ++ c.a0

/-- `Unpack(w)` (R66): none stands for `raise Error(BAD_STATE)`, when A6 or A7 is `10`. Bits 47:36 are
not read (R67). -/
def unpack (w : StateWord) : Option ControllerState :=
  match Ternary.ofField (fieldA6 w), Ternary.ofField (fieldA7 w) with
  | some x, some y =>
    some { a0 := w.extractLsb' 0 6, a1 := w.extractLsb' 6 6, a2 := w.extractLsb' 12 5,
           a3 := w.extractLsb' 17 5, a4 := w.extractLsb' 22 5, a5 := w.extractLsb' 27 5,
           a6 := x, a7 := y, buttons := w.extractLsb' 48 16 }
  | _, _ => none

/-- A STATE operand is valid when neither D-pad field is `10` (R66). -/
def legalStateWord (w : StateWord) : Bool :=
  fieldA6 w != 0b10#2 && fieldA7 w != 0b10#2

end Sys2Proof
end

