-- ==== Sys2Proof/Syntax.lean ====
section
/-!
DEFINITION. The command set (spec/30_encoding.md R61): one constructor of `Instr` per row of
spec/opcode_table.json, and the assembler's view of a command (R75).
-/

namespace Sys2Proof

/-- The six defined opcodes of R61. -/
inductive Opcode where
  | decode
  | encode
  | init
  | step
  | decodeStep
  | rdstatus
  deriving DecidableEq, Repr

/-- A complete command with its operand (R61). A STATE operand is the raw 64-bit word: an invalid one
is a command too, which ends in error BAD_STATE (R66). -/
inductive Instr where
  /-- DECODE, 0x01: a frame to a STATE word (R119). -/
  | decode (frame : Frame)
  /-- ENCODE, 0x02: a STATE word to a frame (R120). -/
  | encode (word : StateWord)
  /-- INIT, 0x03: set LAST (R137). -/
  | init (word : StateWord)
  /-- STEP, 0x04: emit the events from LAST to the operand, then replace LAST (R135). -/
  | step (word : StateWord)
  /-- DECODE_STEP, 0x05: STEP with the decoded frame (R136). -/
  | decodeStep (frame : Frame)
  /-- RDSTATUS, 0x06: read STATUS (R160). -/
  | rdstatus
  deriving DecidableEq, Repr

/-- A state tuple as an assembler script writes it (R75): eight axis values by slot, then the buttons.
The values are software integers, which may lie outside their slot's range. -/
structure AsmTuple where
  x0 : Int
  x1 : Int
  x2 : Int
  x3 : Int
  x4 : Int
  x5 : Int
  x6 : Int
  x7 : Int
  buttons : DigitalWord
  deriving DecidableEq, Repr

/-- A STATE operand of a script: a tuple, or a raw word after `#` (R75). -/
inductive AsmOperand where
  | tuple (t : AsmTuple)
  | raw (w : StateWord)
  deriving DecidableEq, Repr

/-- One line of a command script (R75). `byte` is `.byte`, one raw byte. -/
inductive AsmLine where
  | decode (frame : Frame)
  | decodeStep (frame : Frame)
  | encode (op : AsmOperand)
  | init (op : AsmOperand)
  | step (op : AsmOperand)
  | rdstatus
  | byte (b : Byte)
  deriving DecidableEq, Repr

end Sys2Proof
end

