-- ==== Sys2Proof/Config.lean ====
section
/-!
DEFINITION. The implementation parameters (spec/00_scope.md R7) and profile W, the one parameter set of
spec/95_test_vectors.md (R10).
-/

namespace Sys2Proof

/-- `P_EVQ_DEPTH`: "integer, or unbounded" (R7). -/
inductive QueueDepth where
  | bounded (n : Nat)
  | unbounded
  deriving DecidableEq, Repr

/-- The parameters of R7. The source settles none of them; the machine takes them as a field of its
state that no step writes (log 1), and every statement holds for every value. -/
structure Params where
  /-- `P_DPAD_XPOS`: digital-word bit of D-pad positive X. -/
  dpadXPos : Fin 16
  /-- `P_DPAD_XNEG`: digital-word bit of D-pad negative X. -/
  dpadXNeg : Fin 16
  /-- `P_DPAD_YPOS`: digital-word bit of D-pad positive Y. -/
  dpadYPos : Fin 16
  /-- `P_DPAD_YNEG`: digital-word bit of D-pad negative Y. -/
  dpadYNeg : Fin 16
  /-- `P_BUTTON_EVENT_MASK`: bit i set iff position i gets ButtonChanged events. -/
  buttonEventMask : DigitalWord
  /-- `P_RESERVED_POS`: position of the reserved bit; informational, no rule but R8 reads it. -/
  reservedPos : Fin 16
  /-- `P_BUTTON_NAME`: a finite map from bit index to name; informational, events carry the index
  (log 18). -/
  buttonName : List (Fin 16 × String)
  /-- `P_LAST_RESET`: the value of LAST after reset. -/
  lastReset : ControllerState
  /-- `P_EVQ_DEPTH`: the capacity of EVQ in events. -/
  evqDepth : QueueDepth
  deriving DecidableEq, Repr

/-- Profile W's reset value of LAST: axes (32,32,0,16,16,0,0,0), buttons 0x0000 (R7, R10). -/
def centredState : ControllerState :=
  { a0 := 32, a1 := 32, a2 := 0, a3 := 16, a4 := 16, a5 := 0, a6 := .zero, a7 := .zero, buttons := 0 }

/-- Profile W's names of the button positions (R10's table). -/
def profileWNames : List (Fin 16 × String) :=
  [(13, "LT"), (12, "MINUS"), (11, "HOME"), (10, "PLUS"), (9, "RT"), (7, "ZL"), (6, "B"), (5, "Y"),
   (4, "A"), (3, "X"), (2, "ZR")]

/-- Profile W (R10). DESIGN CHOICE (log 1): `State.reset` is the reset of a block built with it; no
statement rests on these values. -/
def profileW : Params :=
  { dpadXPos := 15, dpadXNeg := 1, dpadYPos := 14, dpadYNeg := 0,
    buttonEventMask := 0x3EFC, reservedPos := 8, buttonName := profileWNames,
    lastReset := centredState, evqDepth := .bounded 32 }

end Sys2Proof
end

