-- ==== Sys2Proof/Machine/Parameters.lean ====
section
/-!
DEFINITION. What spec/00_scope.md derives from the parameters: DPAD_MASK and MAX_EVENTS_PER_STEP (R9),
the validity of a Controller State (spec/10_state.md R22) and the five constraints of R8.
-/

namespace Sys2Proof

/-- The one-bit mask `1 << i` of R9. -/
def bitMask (i : Fin 16) : DigitalWord :=
  1#16 <<< i.val

/-- The bit positions 0 to 15 in ascending order (R132: "fixed bit-index order 0..15"). -/
def positions : List (Fin 16) :=
  [0, 1, 2, 3, 4, 5, 6, 7, 8, 9, 10, 11, 12, 13, 14, 15]

/-- `v[i]` for a 16-bit value (R11). -/
def bitAt (v : DigitalWord) (i : Fin 16) : Bool :=
  v.getLsbD i.val

/-- `popcount(m)` counts the 1 bits of m (R12). -/
def popcount (m : DigitalWord) : Nat :=
  positions.countP fun i => bitAt m i

namespace Params

/-- DPAD_MASK (R9). -/
def dpadMask (p : Params) : DigitalWord :=
  bitMask p.dpadXPos ||| bitMask p.dpadXNeg ||| bitMask p.dpadYPos ||| bitMask p.dpadYNeg

/-- MAX_EVENTS_PER_STEP (R9). -/
def maxEventsPerStep (p : Params) : Nat :=
  8 + popcount p.buttonEventMask + 1

/-- Validity of a Controller State (R22). Condition 1, the axis ranges, holds by construction (log 12);
what is left is condition 2, `buttons & DPAD_MASK == 0`. -/
def validState (p : Params) (c : ControllerState) : Bool :=
  c.buttons &&& p.dpadMask == 0

/-- R8 item 1: the four D-pad positions are distinct. -/
def dpadDistinct (p : Params) : Bool :=
  decide [p.dpadXPos, p.dpadXNeg, p.dpadYPos, p.dpadYNeg].Nodup

/-- R8 item 2: `P_BUTTON_EVENT_MASK & DPAD_MASK == 0`. -/
def maskClearOfDpad (p : Params) : Bool :=
  p.buttonEventMask &&& p.dpadMask == 0

/-- R8 item 3: `P_RESERVED_POS` is no D-pad position and its bit of the mask is 0. -/
def reservedClear (p : Params) : Bool :=
  decide (p.reservedPos ∉ [p.dpadXPos, p.dpadXNeg, p.dpadYPos, p.dpadYNeg])
    && !bitAt p.buttonEventMask p.reservedPos

/-- R8 item 4: `P_LAST_RESET` is a valid Controller State. -/
def lastResetValid (p : Params) : Bool :=
  p.validState p.lastReset

/-- R8 item 5: `P_EVQ_DEPTH >= MAX_EVENTS_PER_STEP`, or unbounded. -/
def depthSuffices (p : Params) : Bool :=
  match p.evqDepth with
  | .bounded n => decide (p.maxEventsPerStep ≤ n)
  | .unbounded => true

/-- The constraints of R8, all five. "A parameter set that breaks one is refused". -/
def wf (p : Params) : Bool :=
  p.dpadDistinct && p.maskClearOfDpad && p.reservedClear && p.lastResetValid && p.depthSuffices

/-- `P_BUTTON_NAME(i)`: the name a sink attaches to position i, if the map gives one (R7, R73). -/
def nameOf (p : Params) (i : Fin 16) : Option String :=
  (p.buttonName.find? fun e => e.1 == i).map fun e => e.2

end Params

end Sys2Proof
end

