-- ==== Sys2Proof/WellFormed.lean ====
section
/-!
DEFINITION. What is well formed: a command's STATE operand (spec/30_encoding.md R66), an assembler tuple
(R75). The parameter set's constraints (spec/00_scope.md R8) are `Params.wf` of Machine/Parameters.lean,
and a Controller State's validity (spec/10_state.md R22) is `Params.validState` there.
-/

namespace Sys2Proof

/-- A command is well formed when its STATE operand, if it has one, is valid (R66). Every frame operand
is legal (R64). An ill-formed command has an encoding too and executes, with error BAD_STATE (R201). -/
def Instr.wellFormed : Instr → Bool
  | .decode _ => true
  | .encode w => legalStateWord w
  | .init w => legalStateWord w
  | .step w => legalStateWord w
  | .decodeStep _ => true
  | .rdstatus => true

/-- Every tuple value lies in its slot's range (R20); "An assembler refuses a tuple value outside its
slot's range" (R75). -/
def AsmTuple.inRange (t : AsmTuple) : Bool :=
  decide (0 ≤ t.x0 ∧ t.x0 ≤ 63) && decide (0 ≤ t.x1 ∧ t.x1 ≤ 63)
    && decide (0 ≤ t.x2 ∧ t.x2 ≤ 31) && decide (0 ≤ t.x3 ∧ t.x3 ≤ 31)
    && decide (0 ≤ t.x4 ∧ t.x4 ≤ 31) && decide (0 ≤ t.x5 ∧ t.x5 ≤ 31)
    && decide (-1 ≤ t.x6 ∧ t.x6 ≤ 1) && decide (-1 ≤ t.x7 ∧ t.x7 ≤ 1)

/-- A STATE operand an assembler accepts: a tuple in range, or any raw word (R75). -/
def AsmOperand.wellFormed : AsmOperand → Bool
  | .tuple t => t.inRange
  | .raw _ => true

/-- A script line an assembler accepts (R75). -/
def AsmLine.wellFormed : AsmLine → Bool
  | .decode _ => true
  | .decodeStep _ => true
  | .encode o => o.wellFormed
  | .init o => o.wellFormed
  | .step o => o.wellFormed
  | .rdstatus => true
  | .byte _ => true

end Sys2Proof
end

