-- ==== Sys2Proof/Decode.lean ====
section
/-!
DEFINITION. The command stream's encoding (spec/30_encoding.md R60 to R65, R75): the opcode map, the
decoder, total on any bytes, the encoder, and the assembler.
-/

namespace Sys2Proof

/-- The opcode byte (R61). -/
def Opcode.toByte : Opcode → Byte
  | .decode => 0x01
  | .encode => 0x02
  | .init => 0x03
  | .step => 0x04
  | .decodeStep => 0x05
  | .rdstatus => 0x06

/-- The opcode a byte names; none for the reserved values 0x00 and 0x07 to 0xFF (R62). -/
def Opcode.ofByte (b : Byte) : Option Opcode :=
  if b = 0x01 then some .decode
  else if b = 0x02 then some .encode
  else if b = 0x03 then some .init
  else if b = 0x04 then some .step
  else if b = 0x05 then some .decodeStep
  else if b = 0x06 then some .rdstatus
  else none

/-- `L(op)`, the payload length in bytes (R61). -/
def Opcode.payloadLength : Opcode → Nat
  | .decode => 6
  | .encode => 8
  | .init => 8
  | .step => 8
  | .decodeStep => 6
  | .rdstatus => 0

/-- What a decoder says of a byte list: a command and the bytes after it, a reserved opcode byte and the
bytes after it (R62), or that bytes are still missing (R47). -/
inductive DecodeResult where
  | ok (i : Instr) (rest : List Byte)
  | reserved (b : Byte) (rest : List Byte)
  | incomplete
  deriving DecidableEq, Repr

/-- A frame command of the payload bytes (R64). -/
def decodeFrameOperand (mk : Frame → Instr) (payload : List Byte) : DecodeResult :=
  match takeFrame payload with
  | some (f, rest) => .ok (mk f) rest
  | none => .incomplete

/-- A STATE command of the payload bytes (R65). -/
def decodeStateOperand (mk : StateWord → Instr) (payload : List Byte) : DecodeResult :=
  match takeState payload with
  | some (w, rest) => .ok (mk w) rest
  | none => .incomplete

/-- The command of an opcode and the bytes after it (R61). -/
def decodePayload (op : Opcode) (payload : List Byte) : DecodeResult :=
  match op with
  | .decode => decodeFrameOperand .decode payload
  | .encode => decodeStateOperand .encode payload
  | .init => decodeStateOperand .init payload
  | .step => decodeStateOperand .step payload
  | .decodeStep => decodeFrameOperand .decodeStep payload
  | .rdstatus => .ok .rdstatus payload

/-- The decoder: one opcode byte, then `L(op)` payload bytes (R60). -/
def decode : List Byte → DecodeResult
  | [] => .incomplete
  | b :: rest =>
    match Opcode.ofByte b with
    | some op => decodePayload op rest
    | none => .reserved b rest

/-- A command's opcode (R61). -/
def Instr.opcode : Instr → Opcode
  | .decode _ => .decode
  | .encode _ => .encode
  | .init _ => .init
  | .step _ => .step
  | .decodeStep _ => .decodeStep
  | .rdstatus => .rdstatus

/-- A command's payload bytes in order of arrival (R61, R64, R65). -/
def Instr.payload : Instr → List Byte
  | .decode f => f.bytes
  | .encode w => stateBytes w
  | .init w => stateBytes w
  | .step w => stateBytes w
  | .decodeStep f => f.bytes
  | .rdstatus => []

/-- The encoder: the bytes of a command on the command channel (R60). -/
def encode (i : Instr) : List Byte :=
  i.opcode.toByte :: i.payload

/-- Byte k of an instruction numbered as spec/opcode_table.json numbers its bits: bit 0 is the least
significant bit of the first byte, and bits at or above `nbits` are 0. -/
def tableByte (nbits w k : Nat) : Byte :=
  BitVec.ofNat 8 ((w % 2 ^ nbits) >>> (8 * k))

/-- The bytes of such an instruction, up to the longest command's nine (R63). -/
def tableBytes (nbits w : Nat) : List Byte :=
  [tableByte nbits w 0, tableByte nbits w 1, tableByte nbits w 2, tableByte nbits w 3,
   tableByte nbits w 4, tableByte nbits w 5, tableByte nbits w 6, tableByte nbits w 7,
   tableByte nbits w 8]

/-- The command the decoder reads from an instruction numbered as the opcode table numbers it. -/
def decodeTableWord (nbits w : Nat) : Option Instr :=
  match decode (tableBytes nbits w) with
  | .ok i _ => some i
  | .reserved _ _ => none
  | .incomplete => none

/-- How many bytes the command starting with an opcode byte has (R63): one for a reserved opcode. -/
def commandLength (b : Byte) : Nat :=
  match Opcode.ofByte b with
  | some op => 1 + op.payloadLength
  | none => 1

/-- The Controller State of an assembler tuple; none when a value lies outside its slot's range (R75). -/
def AsmTuple.toState (t : AsmTuple) : Option ControllerState :=
  if t.inRange then
    match Ternary.ofInt t.x6, Ternary.ofInt t.x7 with
    | some x, some y =>
      some { a0 := BitVec.ofInt 6 t.x0, a1 := BitVec.ofInt 6 t.x1, a2 := BitVec.ofInt 5 t.x2,
             a3 := BitVec.ofInt 5 t.x3, a4 := BitVec.ofInt 5 t.x4, a5 := BitVec.ofInt 5 t.x5,
             a6 := x, a7 := y, buttons := t.buttons }
    | _, _ => none
  else none

/-- The STATE word of an operand: "A tuple operand assembles to `Pack(s)`" (R75). -/
def AsmOperand.toWord : AsmOperand → Option StateWord
  | .tuple t => t.toState.map pack
  | .raw w => some w

/-- The bytes a script line assembles to; none when the assembler refuses it (R75). -/
def assemble : AsmLine → Option (List Byte)
  | .decode f => some (encode (.decode f))
  | .decodeStep f => some (encode (.decodeStep f))
  | .encode o => o.toWord.map fun w => encode (.encode w)
  | .init o => o.toWord.map fun w => encode (.init w)
  | .step o => o.toWord.map fun w => encode (.step w)
  | .rdstatus => some (encode .rdstatus)
  | .byte b => some [b]

end Sys2Proof
end

