-- ==== Sys2Proof/Machine/State.lean ====
section
/-!
DEFINITION. The machine's state as plain data (spec/10_state.md R23, R30), the moves of its agents
(spec/20_memory.md R53, spec/60_exceptions.md R208), and its state after reset.
-/

namespace Sys2Proof.Machine

/-- A Change Event (R26): `axisChanged(slot, value)`, `buttonChanged(bit, pressed)`, `frameComplete`. -/
inductive Event where
  | axisChanged (slot : Fin 8) (value : Int)
  | buttonChanged (bit : Fin 16) (pressed : Bool)
  | frameComplete
  deriving DecidableEq, Repr

/-- PARSER (R28): between commands, or after an opcode byte with the payload bytes received so far. A
complete STEP or DECODE_STEP that is held for queue space (R138) stays here with its whole payload
(DEDUCED, log 5). -/
inductive Parser where
  | idle
  | collecting (op : Opcode) (bytes : List Byte)
  deriving DecidableEq, Repr

/-- A move of one agent (R53, R208). DESIGN CHOICE (log 3): the order of moves is data of the state, so
every interleaving the spec allows is some list. -/
inductive Move where
  /-- The host writes one byte on the command channel. -/
  | hostSend (b : Byte)
  /-- The host reads one byte of the response channel, if one is pending. -/
  | hostRecv
  /-- The block moves: it receives a byte, or executes a complete command, or waits. -/
  | block
  /-- The sink's TAKE (R139). -/
  | sinkTake
  /-- Reset is asserted (R240). -/
  | reset
  deriving DecidableEq, Repr

/-- Hardware faults that stop the machine: there are none, since "an error does not vector, save any
state, change mode or halt the block" (R205). DEDUCED (log 11): safe, nothing can be proved of a stop
that cannot happen. -/
inductive Fault where
  deriving DecidableEq, Repr

/-- Why the model gives no meaning. -/
inductive Refusal where
  /-- An instruction without a meaning in the model; no step raises it, every command has one. Safe. -/
  | notModelled (mnemonic : String)
  /-- Raised by `step` when the parameter set breaks a constraint of R8: "the model gives no meaning to
  a block built with it" (R8, I20). Safe: nothing is claimed of such a block (log 2). -/
  | illFormedParameters
  deriving DecidableEq, Repr

/-- The state of the block and of the surfaces it shares with host and sink. -/
structure State where
  /-- The implementation parameters (R7); no step writes them (log 1). -/
  params : Params
  /-- LAST (R24, R25). -/
  last : ControllerState
  /-- EVQ, head first (R26). -/
  evq : List Event
  /-- STATUS (R27): read and written through Machine/Flags.lean only. -/
  status : Byte
  /-- PARSER (R28). -/
  parser : Parser
  /-- Command channel: bytes written by the host and not yet received, oldest first (R40, R50). -/
  cmd : List Byte
  /-- Response channel: bytes pending, oldest first (R40, R71). -/
  resp : List Byte
  /-- Events delivered to the sink, oldest first (R139); the model's own record (log 8). -/
  toSink : List Event
  /-- Response bytes the host has read, oldest first (R51); the model's own record (log 7). -/
  toHost : List Byte
  /-- Whose move is next; when empty, the block's (log 3). -/
  sched : List Move
  deriving DecidableEq, Repr

/-- The state right after reset of a block built with parameters `p` (R30), with nothing sent, nothing
delivered and nothing scheduled (log 20). -/
def State.resetWith (p : Params) : State :=
  { params := p, last := p.lastReset, evq := [], status := 0x00, parser := .idle, cmd := [],
    resp := [], toSink := [], toHost := [], sched := [] }

/-- The state right after reset. DESIGN CHOICE (log 1): the block is built with profile W. -/
def State.reset : State :=
  State.resetWith profileW

end Sys2Proof.Machine
end

