-- ==== Sys2Proof/Machine/Events.lean ====
section
/-!
DEFINITION. Events: Diff (spec/41_diff_engine.md R130 to R134), the event word (spec/30_encoding.md R73)
and its bytes (spec/20_memory.md R45), and the event port (spec/10_state.md R26).
-/

namespace Sys2Proof.Machine

/-- The slots in ascending order (R131). -/
def slots : List (Fin 8) :=
  [0, 1, 2, 3, 4, 5, 6, 7]

/-- The axis loop's body for one slot (R130, R131). -/
def axisEvent (last new : ControllerState) (slot : Fin 8) : Option Event :=
  if new.axis slot ≠ last.axis slot then some (.axisChanged slot (new.axis slot)) else none

/-- The button loop's body for one position (R130, R132). -/
def buttonEvent (p : Params) (last new : ControllerState) (i : Fin 16) : Option Event :=
  if bitAt p.buttonEventMask i = true ∧ bitAt new.buttons i ≠ bitAt last.buttons i then
    some (.buttonChanged i (bitAt new.buttons i))
  else none

/-- The change events of R130, before the trailing marker: axes first, then buttons (R134). -/
def changeEvents (p : Params) (last new : ControllerState) : List Event :=
  slots.filterMap (axisEvent last new) ++ positions.filterMap (buttonEvent p last new)

/-- The single trailing FrameComplete of a non-empty result (R133). -/
def withFrameComplete (ev : List Event) : List Event :=
  if ev = [] then [] else ev ++ [.frameComplete]

/-- `Diff(last, new)` (R130). -/
def diff (p : Params) (last new : ControllerState) : List Event :=
  withFrameComplete (changeEvents p last new)

/-- The 16-bit event word (R73). -/
def Event.toWord : Event → EventWord
  | .axisChanged slot value => 0b00#2 ++ 0b00#2 ++ BitVec.ofNat 4 slot.val ++ BitVec.ofInt 8 value
  | .buttonChanged bit pressed =>
    0b01#2 ++ 0b00#2 ++ BitVec.ofNat 4 bit.val ++ 0#7 ++ BitVec.ofBool pressed
  | .frameComplete => 0b10#2 ++ 0b00#2 ++ 0#4 ++ 0x00#8

/-- The bytes of an event word when a sink serialises it: big-endian (R45). -/
def eventWordBytes (w : EventWord) : List Byte :=
  [w.extractLsb' 8 8, w.extractLsb' 0 8]

/-- `EV_VALID = (len(EVQ) > 0)` (R26). -/
def evValid (s : State) : Bool :=
  decide (0 < s.evq.length)

/-- The word the event port presents while EV_VALID is set: the head of EVQ (R26, R73). -/
def evPort (s : State) : Option EventWord :=
  s.evq.head?.map Event.toWord

/-- The name a sink attaches to an event of a button (R73, R134). -/
def Event.buttonName (p : Params) : Event → Option String
  | .axisChanged _ _ => none
  | .buttonChanged bit _ => p.nameOf bit
  | .frameComplete => none

end Sys2Proof.Machine
end

