-- ==== Sys2Proof/Machine/Flags.lean ====
section
/-!
DEFINITION. The STATUS register (spec/10_state.md R27) and the two error codes that write it
(spec/30_encoding.md R72, spec/60_exceptions.md R201, R202).
-/

namespace Sys2Proof.Machine

/-- The two error conditions (R201). -/
inductive ErrorCode where
  | illegalOp
  | badState
  deriving DecidableEq, Repr

/-- The status byte of an OK response (R72). -/
def okByte : Byte := 0x00

/-- The status byte of an error response (R72). -/
def ErrorCode.toByte : ErrorCode → Byte
  | .illegalOp => 0x01
  | .badState => 0x02

/-- `code[1:0]`, what FIRST_CODE records (R72, R202). -/
def ErrorCode.toField (code : ErrorCode) : BitVec 2 :=
  code.toByte.extractLsb' 0 2

/-- STATUS.ERR, bit 0 (R27). -/
def statusErr (st : Byte) : Bool :=
  st.getLsbD 0

/-- STATUS.FIRST_CODE, bits 2:1 (R27). -/
def statusFirstCode (st : Byte) : BitVec 2 :=
  st.extractLsb' 1 2

/-- The STATUS byte `{00000, FIRST_CODE[1:0], ERR}`: bits 7:3 are hard-wired zero (R27, R160). -/
def statusOf (err : Bool) (first : BitVec 2) : Byte :=
  0#5 ++ first ++ BitVec.ofBool err

/-- What RDSTATUS reads (R160): the hard-wired bits read as zero whatever the field holds (log 13). -/
def statusRead (st : Byte) : Byte :=
  statusOf (statusErr st) (statusFirstCode st)

/-- STATUS after an error (R202): FIRST_CODE is written if ERR was 0, and ERR is set. -/
def statusRecord (st : Byte) (code : ErrorCode) : Byte :=
  statusOf true (if statusErr st then statusFirstCode st else code.toField)

end Sys2Proof.Machine
end

