-- ==== Sys2Proof/Machine/WireCodec.lean ====
section
/-!
DEFINITION. The Wire Codec's two pure functions (spec/40_codec.md): Decode (R100 to R110) and Encode
(R111 to R117). They read their operand and the D-pad positions, and nothing else (R56, R110, R117).
-/

namespace Sys2Proof

/-- The digital word `D = ~{frame[4], frame[5]}`, active-high (R106). -/
def digitalWord (f : Frame) : DigitalWord :=
  ~~~f.wireWord

/-- `Decode(frame)` (R110). -/
def wireDecode (p : Params) (f : Frame) : ControllerState :=
  let d := digitalWord f
  { a0 := f.f0.extractLsb' 0 6
    a1 := f.f1.extractLsb' 0 6
    a2 := f.f2.extractLsb' 5 2 ++ f.f3.extractLsb' 5 3
    a3 := f.f0.extractLsb' 6 2 ++ f.f1.extractLsb' 6 2 ++ f.f2.extractLsb' 7 1
    a4 := f.f2.extractLsb' 0 5
    a5 := f.f3.extractLsb' 0 5
    a6 := Ternary.ofPair (bitAt d p.dpadXPos) (bitAt d p.dpadXNeg)
    a7 := Ternary.ofPair (bitAt d p.dpadYPos) (bitAt d p.dpadYNeg)
    buttons := d &&& ~~~p.dpadMask }

/-- `D[i] |= c` (R117). -/
def orBit (d : DigitalWord) (i : Fin 16) (c : Bool) : DigitalWord :=
  if c then d ||| bitMask i else d

/-- Encode's digital word before inversion (R115): the ordinary button bits, and the D-pad bits from
axes 6 and 7 alone. -/
def encodedDigitalWord (p : Params) (c : ControllerState) : DigitalWord :=
  let d0 := c.buttons &&& ~~~p.dpadMask
  let d1 := orBit d0 p.dpadXPos (c.a6 == .pos)
  let d2 := orBit d1 p.dpadXNeg (c.a6 == .neg)
  let d3 := orBit d2 p.dpadYPos (c.a7 == .pos)
  orBit d3 p.dpadYNeg (c.a7 == .neg)

/-- `Encode(state)` (R117). -/
def wireEncode (p : Params) (c : ControllerState) : Frame :=
  let w := ~~~(encodedDigitalWord p c)
  { f0 := c.a3.extractLsb' 3 2 ++ c.a0
    f1 := c.a3.extractLsb' 1 2 ++ c.a1
    f2 := c.a3.extractLsb' 0 1 ++ c.a2.extractLsb' 3 2 ++ c.a4
    f3 := c.a2.extractLsb' 0 3 ++ c.a5
    f4 := w.extractLsb' 8 8
    f5 := w.extractLsb' 0 8 }

end Sys2Proof
end

