-- ==== Sys2Proof/Machine/Ops.lean ====
section
/-!
DEFINITION. The named operations over the state: responding, taking an error, the engine's adoption of a
new state, the hold for queue space, the parser, and the moves of host, sink and reset. The block has no
registers and no memory (spec/00_scope.md R13), so these are all there are.
-/

namespace Sys2Proof.Machine

/-- `Respond(OK, data)` and `PARSER <- Idle`: the end of every command that completes (R71, R119). -/
def State.respondOk (s : State) (data : List Byte) : State :=
  { s with resp := s.resp ++ okByte :: data, parser := .idle }

/-- `raise Error(code)` (R202): a one-byte response, STATUS, PARSER to Idle, and "nothing else changes".
There is no trap, so nothing is saved, and there is no return from an error (R205). -/
def State.raiseError (s : State) (code : ErrorCode) : State :=
  { s with resp := s.resp ++ [code.toByte], status := statusRecord s.status code, parser := .idle }

/-- `EVQ <- EVQ ++ Diff(LAST, new); LAST <- new` (R135, R136): all at once, and LAST whole (R25). -/
def State.adopt (s : State) (new : ControllerState) : State :=
  { s with evq := s.evq ++ diff s.params s.last new, last := new }

/-- `LAST <- s` of INIT (R137). -/
def State.setLast (s : State) (new : ControllerState) : State :=
  { s with last := new }

/-- Room for a step's worst case: `P_EVQ_DEPTH - len(EVQ) >= MAX_EVENTS_PER_STEP`, always when the depth
is unbounded (R138). -/
def State.hasRoom (s : State) : Bool :=
  match s.params.evqDepth with
  | .bounded n => decide (s.evq.length + s.params.maxEventsPerStep ≤ n)
  | .unbounded => true

/-- A STATE operand's use (R66): BAD_STATE when a D-pad field is `10`, else `k` with the unpacked
state. The check precedes every write (R203). -/
def withStateOperand (w : StateWord) (s : State) (k : ControllerState → State) : State :=
  match unpack w with
  | some c => k c
  | none => s.raiseError .badState

/-- STEP's and DECODE_STEP's precondition (R138): without room the command is held. DEDUCED (log 5, log
6): a held command changes nothing, and the hold comes before any look at the operand, since "whether a
step is held does not depend on its data". -/
def whenRoom (s : State) (effect : State) : State :=
  if s.hasRoom then effect else s

/-- The command bytes PARSER holds: none when idle, else the opcode byte and the payload so far (R28). -/
def Parser.received : Parser → List Byte
  | .idle => []
  | .collecting op bytes => op.toByte :: bytes

/-- PARSER after one more byte (R28): an opcode byte with a payload starts Collecting, a payload byte is
added. A byte that is a whole command by itself leaves it Idle. -/
def Parser.push (p : Parser) (b : Byte) : Parser :=
  match p with
  | .idle =>
    match Opcode.ofByte b with
    | some op => if op.payloadLength = 0 then .idle else .collecting op []
    | none => .idle
  | .collecting op bytes => .collecting op (bytes ++ [b])

/-- The complete command PARSER holds, if any: one that was held for queue space (R138). -/
def Parser.waiting (p : Parser) : Option Instr :=
  match decode p.received with
  | .ok i _ => some i
  | .reserved _ _ => none
  | .incomplete => none

/-- PARSER with the given command bytes received, all from one opcode byte on: what pushing them in
turn leaves. -/
def Parser.ofBytes (bytes : List Byte) : Parser :=
  bytes.foldl Parser.push .idle

/-- PARSER takes one byte (R28). -/
def State.pushByte (s : State) (b : Byte) : State :=
  { s with parser := s.parser.push b }

/-- The host writes a byte on the command channel (R40). -/
def State.hostSend (s : State) (b : Byte) : State :=
  { s with cmd := s.cmd ++ [b] }

/-- The host reads the oldest pending response byte; with none pending nothing happens (R51, log 7). -/
def State.hostRecv (s : State) : State :=
  match s.resp with
  | [] => s
  | b :: rest => { s with resp := rest, toHost := s.toHost ++ [b] }

/-- The sink's TAKE (R139): the head of EVQ is delivered; not enabled, and so without effect, when EVQ
is empty (log 8). -/
def State.sinkTake (s : State) : State :=
  match s.evq with
  | [] => s
  | ev :: rest => { s with evq := rest, toSink := s.toSink ++ [ev] }

/-- Reset (R240): LAST, EVQ, STATUS, PARSER and the pending response, and nothing else. DEDUCED (log 9):
bytes not yet received from the command channel stay, as R240 does not name them. -/
def State.assertReset (s : State) : State :=
  { s with last := s.params.lastReset, evq := [], status := 0x00, parser := .idle, resp := [] }

end Sys2Proof.Machine
end

