-- ==== Sys2Proof/Machine/Codec.lean ====
section
/-!
DEFINITION. The Wire Codec's commands: DECODE (spec/40_codec.md R119) and ENCODE (R120).
-/

namespace Sys2Proof.Machine

/-- DECODE (R119): the response is `Pack(Decode(frame))`, eight bytes big-endian. -/
def execDecode (frame : Frame) (s : State) : Host.Outcome State Fault Refusal :=
  .next (s.respondOk (stateBytes (pack (wireDecode s.params frame))))

/-- ENCODE (R120): the response is `Encode(Unpack(w))`, frame[0] first, or BAD_STATE. -/
def execEncode (word : StateWord) (s : State) : Host.Outcome State Fault Refusal :=
  .next (withStateOperand word s fun c => s.respondOk (wireEncode s.params c).bytes)

end Sys2Proof.Machine
end

