-- ==== Sys2Proof/Machine/Control.lean ====
section
/-!
DEFINITION. Control: RDSTATUS (spec/42_control.md R160) and the effect of a reserved opcode (R161).
-/

namespace Sys2Proof.Machine

/-- RDSTATUS (R160): the response is STATUS; the read clears nothing. -/
def execRdstatus (s : State) : Host.Outcome State Fault Refusal :=
  .next (s.respondOk [statusRead s.status])

/-- A reserved opcode byte (R161): error ILLEGAL_OP, and the next byte is taken as an opcode. -/
def execReserved (s : State) : Host.Outcome State Fault Refusal :=
  .next (s.raiseError .illegalOp)

end Sys2Proof.Machine
end

