-- ==== Sys2Proof/Machine/DiffEngine.lean ====
section
/-!
DEFINITION. The Event Diff Engine's commands: INIT (spec/41_diff_engine.md R137), STEP (R135) and
DECODE_STEP (R136), the last two under the hold of R138.
-/

namespace Sys2Proof.Machine

/-- INIT (R137): LAST is replaced, EVQ is not touched; or BAD_STATE. Never held. -/
def execInit (word : StateWord) (s : State) : Host.Outcome State Fault Refusal :=
  .next (withStateOperand word s fun c => (s.setLast c).respondOk [])

/-- STEP (R135): held without room; else the events of `Diff(LAST, new)` and LAST replaced, or
BAD_STATE. -/
def execStep (word : StateWord) (s : State) : Host.Outcome State Fault Refusal :=
  .next (whenRoom s (withStateOperand word s fun c => (s.adopt c).respondOk []))

/-- DECODE_STEP (R136): held without room; else STEP's effect with `Decode(frame)`. -/
def execDecodeStep (frame : Frame) (s : State) : Host.Outcome State Fault Refusal :=
  .next (whenRoom s ((s.adopt (wireDecode s.params frame)).respondOk []))

end Sys2Proof.Machine
end

