-- ==== Sys2Proof/Machine/Dispatch.lean ====
section
/-!
DEFINITION. One arm per command: the meaning of a complete command (spec/30_encoding.md R61).
-/

namespace Sys2Proof.Machine

def exec (i : Instr) (s : State) : Host.Outcome State Fault Refusal :=
  match i with
  | .decode frame => Sys2Proof.Machine.execDecode frame s
  | .encode word => Sys2Proof.Machine.execEncode word s
  | .init word => Sys2Proof.Machine.execInit word s
  | .step word => Sys2Proof.Machine.execStep word s
  | .decodeStep frame => Sys2Proof.Machine.execDecodeStep frame s
  | .rdstatus => Sys2Proof.Machine.execRdstatus s

end Sys2Proof.Machine
end

