-- ==== Sys2Proof/Machine/Agents.lean ====
section
/-!
DEFINITION. What each agent's move does (spec/20_memory.md R47, R50, R53; spec/10_state.md R28;
spec/41_diff_engine.md R138, R139; spec/70_reset_and_hazards.md R240).
-/

namespace Sys2Proof.Machine

/-- The block receives one command byte (R28): a command whose last byte this is executes now (R47), a
reserved opcode ends in ILLEGAL_OP (R161), and any other byte is kept in PARSER and has no other
effect. -/
def receiveByte (b : Byte) (s : State) : Host.Outcome State Fault Refusal :=
  match decode (s.parser.received ++ [b]) with
  | .ok i _ => exec i (s.pushByte b)
  | .reserved _ _ => execReserved s
  | .incomplete => .next (s.pushByte b)

/-- The block's move. A complete command that was held is tried again before any later byte is received
(R138); else the next byte is received; with none there the block waits and holds its state (R210). -/
def blockMove (s : State) : Host.Outcome State Fault Refusal :=
  match s.parser.waiting with
  | some i => exec i s
  | none =>
    match s.cmd with
    | [] => .next s
    | b :: rest => receiveByte b { s with cmd := rest }

/-- One move of one agent. -/
def applyMove (m : Move) (s : State) : Host.Outcome State Fault Refusal :=
  match m with
  | .hostSend b => .next (s.hostSend b)
  | .hostRecv => .next s.hostRecv
  | .block => blockMove s
  | .sinkTake => .next s.sinkTake
  | .reset => .next s.assertReset

/-- The next scheduled move; with none scheduled the block moves (log 3). -/
def runSchedule (s : State) : Host.Outcome State Fault Refusal :=
  match s.sched with
  | [] => blockMove s
  | m :: rest => applyMove m { s with sched := rest }

/-- One step of a block whose parameters meet R8; any other block is refused (R8, log 2). -/
def stepOf (s : State) : Host.Outcome State Fault Refusal :=
  if s.params.wf then runSchedule s else .refused .illFormedParameters

/-- The state in which the block's next move receives the last byte of the given command (log 10): the
bytes before it stand in PARSER, the last one at the head of the command channel, and the block moves
next. -/
def State.withCommandBytes (s : State) (bytes : List Byte) : State :=
  { s with parser := Parser.ofBytes bytes.dropLast,
           cmd := bytes.getLast?.toList ++ s.cmd,
           sched := .block :: s.sched }

/-- The command bytes of an instruction numbered as the opcode table numbers it: as many as its opcode
byte says (R63). -/
def tableCommand (nbits w : Nat) : List Byte :=
  (tableBytes nbits w).take (commandLength (tableByte nbits w 0))

end Sys2Proof.Machine
end

