-- ==== Sys2Proof/Machine/Step.lean ====
section
/-!
DEFINITION. One step of the machine, and where an instruction is placed so that the next step runs it.
-/

namespace Sys2Proof.Machine

/-- One step: one move of one agent (R53, R208), each command's whole effect within one step (R47). -/
def step (s : State) : Host.Outcome State Fault Refusal :=
  stepOf s

/-- `s` with the given instruction arriving at the block, so that the very next step executes it: all
its bytes but the last are in PARSER, the last is the next byte of the command channel, and the block
moves next (log 10). -/
def State.withFetchWord (s : State) (nbits w : Nat) : State :=
  s.withCommandBytes (tableCommand nbits w)

end Sys2Proof.Machine
end

