-- ==== Sys2Proof/Safety.lean ====
section
/-!
DEFINITION. What the spec promises of every state a run holds, in the terms the statements use: legal
STATUS, PARSER, EVQ and events, and what a sink that reads the events learns.
-/

namespace Sys2Proof.Machine

/-- The smallest value of a slot (R20). -/
def slotMin (slot : Fin 8) : Int :=
  if slot.val < 6 then 0 else -1

/-- The largest value of a slot (R20). -/
def slotMax (slot : Fin 8) : Int :=
  if slot.val < 2 then 63 else if slot.val < 6 then 31 else 1

/-- The legal values of STATUS: bits 7:3 zero, FIRST_CODE 00 while ERR is 0, and never 11 (R27). -/
def statusLegal (st : Byte) : Bool :=
  st == 0x00 || st == 0x03 || st == 0x05

/-- The two commands the hold of R138 applies to. -/
def isHeldKind : Opcode → Bool
  | .step => true
  | .decodeStep => true
  | .decode => false
  | .encode => false
  | .init => false
  | .rdstatus => false

/-- PARSER as R28 describes it: Idle, or Collecting fewer bytes than the payload has; only a STEP or
DECODE_STEP can stand there whole, and that one can is DEDUCED: a command held for queue space (R138)
stands there (log 5). -/
def parserLegal : Parser → Bool
  | .idle => true
  | .collecting op bytes =>
    decide (bytes.length < op.payloadLength)
      || (isHeldKind op && decide (bytes.length = op.payloadLength))

/-- An event the block may emit (R74, R141): the value in its slot's range, the button in the mask. -/
def eventLegal (p : Params) : Event → Bool
  | .axisChanged slot v => decide (slotMin slot ≤ v ∧ v ≤ slotMax slot)
  | .buttonChanged bit _ => bitAt p.buttonEventMask bit
  | .frameComplete => true

/-- The capacity of EVQ is respected (R23). -/
def depthRespected (s : State) : Bool :=
  match s.params.evqDepth with
  | .bounded n => decide (s.evq.length ≤ n)
  | .unbounded => true

/-- The queue is empty or ends with a FrameComplete (R52: every emitting STEP ends with its own). -/
def endsWithFrameComplete (evs : List Event) : Bool :=
  evs.getLast? == none || evs.getLast? == some .frameComplete

/-- The machine's invariant: the promises of R8, R23, R27, R28, R52 and R74 in one. -/
structure State.Inv (s : State) : Prop where
  params_wf : s.params.wf = true
  depth : depthRespected s = true
  queue_legal : s.evq.all (eventLegal s.params) = true
  sink_legal : s.toSink.all (eventLegal s.params) = true
  queue_complete : endsWithFrameComplete s.evq = true
  status_legal : statusLegal s.status = true
  parser_legal : parserLegal s.parser = true

/-- It is the block's turn, and `rest` is what is scheduled after it (log 3). -/
def State.blockTurn (s : State) (rest : List Move) : Prop :=
  s.sched = .block :: rest ∨ (s.sched = [] ∧ rest = [])

/-- `n` steps of the machine in turn (the host's `Core.run` of `core`, typed by the model's own names). -/
def runSteps (n : Nat) (s : State) : Host.Outcome State Fault Refusal :=
  Sys2Proof.core.run n s

/-- The block's move in `s` executes the command `i`: it stands complete in PARSER (it was held, log 5), or
the next byte of the command channel completes it (R28, R47). -/
def State.completes (s : State) (i : Instr) : Prop :=
  s.parser.waiting = some i ∨
  (s.parser.waiting = none ∧ ∃ (b : Byte) (rest after : List Byte), s.cmd = b :: rest ∧
    decode (s.parser.received ++ [b]) = .ok i after)

/-- STATUS goes from `old` to `new` by an error with the 2-bit `code` (R202, R27): ERR is set, FIRST_CODE
is written only if ERR was 0, bits 7:3 are zero. -/
def recordsError (old new : Byte) (code : BitVec 2) : Prop :=
  new.getLsbD 0 = true ∧
  new.extractLsb' 1 2 = (if old.getLsbD 0 then old.extractLsb' 1 2 else code) ∧
  new.extractLsb' 3 5 = 0#5

/-- What one event tells of an axis: the new value, if it is that slot's event. -/
def axisAfter (slot : Fin 8) (v : Int) : Event → Int
  | .axisChanged k w => if k = slot then w else v
  | .buttonChanged _ _ => v
  | .frameComplete => v

/-- What one event tells of a button. -/
def buttonAfter (i : Fin 16) (v : Bool) : Event → Bool
  | .axisChanged _ _ => v
  | .buttonChanged k w => if k = i then w else v
  | .frameComplete => v

/-- The value of an axis a consumer holds after reading the events in order, from a first value. -/
def seenAxis (slot : Fin 8) (v : Int) (evs : List Event) : Int :=
  evs.foldl (axisAfter slot) v

/-- The value of a button a consumer holds after reading the events in order, from a first value. -/
def seenButton (i : Fin 16) (v : Bool) (evs : List Event) : Bool :=
  evs.foldl (buttonAfter i) v

/-- The place of an event in the order of R134: slots, then button positions, then FrameComplete. -/
def Event.rank : Event → Nat
  | .axisChanged slot _ => slot.val
  | .buttonChanged bit _ => 8 + bit.val
  | .frameComplete => 24

/-- Two STATE words agree on every bit but the reserved bits 47:36 (R65, R67). -/
def agreeOffReserved (w w' : StateWord) : Prop :=
  w &&& ~~~0x0000FFF000000000#64 = w' &&& ~~~0x0000FFF000000000#64

/-- Both wire bits of D-pad X are 0 in a frame: both directions pressed (R122). -/
def bothXPressed (p : Params) (f : Frame) : Bool :=
  !bitAt f.wireWord p.dpadXPos && !bitAt f.wireWord p.dpadXNeg

/-- Both wire bits of D-pad Y are 0 in a frame (R122). -/
def bothYPressed (p : Params) (f : Frame) : Bool :=
  !bitAt f.wireWord p.dpadYPos && !bitAt f.wireWord p.dpadYNeg

end Sys2Proof.Machine
end

