-- ==== Sys2Proof/Certificates/Slice0/Obligations.lean ====
section
/-!
DEFINITION. The statements for the provers, from the numbered rules of spec/. Each docstring names the
rule it formalises. Every statement holds for every parameter set (log 1); `Params.wf` is R8 and stands
as a hypothesis only where a rule needs it.
-/

open Sys2Proof Sys2Proof.Machine

/-! ### The command stream's encoding -/

/-- R60, R61, R64, R65: decoding the bytes of any command, with any bytes after them, gives back that command
with every operand bit, and leaves the bytes after it. -/
def Obligations.DecodeOfEncode : Prop :=
  ∀ (i : Instr) (rest : List Byte), decode (encode i ++ rest) = .ok i rest

/-- R60, R61, R63: whatever the decoder reads as a command was that command's encoding: no other bytes
decode to it. -/
def Obligations.EncodeOfDecode : Prop :=
  ∀ (bytes rest : List Byte) (i : Instr), decode bytes = .ok i rest → bytes = encode i ++ rest

/-- R62, R63: the first byte alone decides. It is reserved exactly when it is 0x00 or at least 0x07, and
then the next byte starts the next command; else the command is incomplete exactly while fewer bytes
are there than 7 for 0x01 and 0x05, 9 for 0x02 to 0x04, 1 for 0x06. -/
def Obligations.OpcodeByteDecides : Prop :=
  ∀ (b : Byte) (rest : List Byte),
    (decode (b :: rest) = .reserved b rest ↔ b = 0x00 ∨ 0x07 ≤ b.toNat) ∧
    ((∃ c r, decode (b :: rest) = .reserved c r) → decode (b :: rest) = .reserved b rest) ∧
    (decode (b :: rest) = .incomplete ↔
      ((b = 0x01 ∨ b = 0x05) ∧ rest.length + 1 < 7) ∨
      ((b = 0x02 ∨ b = 0x03 ∨ b = 0x04) ∧ rest.length + 1 < 9))

/-- Words written out from R61, R64 and R65: one command of each operand form and each opcode decodes to
the command it stands for. -/
def Obligations.WrittenWordsDecode : Prop :=
  decode [0x01, 0x45, 0x3C, 0xDE, 0x22, 0x9B, 0xED]
      = .ok (.decode ⟨0x45, 0x3C, 0xDE, 0x22, 0x9B, 0xED⟩) [] ∧
  decode [0x02, 0x24, 0x10, 0x00, 0x07, 0x17, 0x93, 0x1F, 0x05]
      = .ok (.encode 0x2410000717931F05) [] ∧
  decode [0x03, 0x00, 0x00, 0x00, 0x00, 0x0C, 0x20, 0x08, 0x20]
      = .ok (.init 0x000000000C200820) [] ∧
  decode [0x04, 0x3E, 0xFC, 0x00, 0x05, 0xF8, 0x01, 0xF0, 0x00]
      = .ok (.step 0x3EFC0005F801F000) [] ∧
  decode [0x05, 0xA0, 0x20, 0x10, 0x00, 0x7F, 0xFD]
      = .ok (.decodeStep ⟨0xA0, 0x20, 0x10, 0x00, 0x7F, 0xFD⟩) [] ∧
  decode [0x06] = .ok .rdstatus []

/-- R75: a tuple in range assembles to the command whose STATE word unpacks to exactly those axes and
buttons; a tuple with a value outside its slot's range is refused; a raw word is taken as it is. -/
def Obligations.AssembleTuple : Prop :=
  ∀ (t : AsmTuple) (w : StateWord),
    (t.inRange = true → ∃ (v : StateWord) (c : ControllerState),
      assemble (.step (.tuple t)) = some (encode (.step v)) ∧
      assemble (.encode (.tuple t)) = some (encode (.encode v)) ∧
      assemble (.init (.tuple t)) = some (encode (.init v)) ∧
      v = pack c ∧ unpack v = some c ∧ c.buttons = t.buttons ∧
      (slots.map fun k => c.axis k) = [t.x0, t.x1, t.x2, t.x3, t.x4, t.x5, t.x6, t.x7]) ∧
    (t.inRange = false →
      assemble (.step (.tuple t)) = none ∧ assemble (.encode (.tuple t)) = none ∧
      assemble (.init (.tuple t)) = none) ∧
    assemble (.step (.raw w)) = some (encode (.step w)) ∧
    assemble (.encode (.raw w)) = some (encode (.encode w)) ∧
    assemble (.init (.raw w)) = some (encode (.init w))

/-! ### The STATE word -/

/-- R65, R45: the fields of a packed state stand at the bits R65 gives, bits 47:36 are 0, and byte k of
the word on the channel is bits 63-8k to 56-8k. -/
def Obligations.PackFields : Prop :=
  ∀ (c : ControllerState),
    (pack c).toNat / 2 ^ 48 = c.buttons.toNat ∧
    (pack c).toNat / 2 ^ 36 % 2 ^ 12 = 0 ∧
    (pack c).toNat / 2 ^ 34 % 2 ^ 2 = (BitVec.ofInt 2 (c.axis 7)).toNat ∧
    (pack c).toNat / 2 ^ 32 % 2 ^ 2 = (BitVec.ofInt 2 (c.axis 6)).toNat ∧
    (((pack c).toNat / 2 ^ 27 % 2 ^ 5 : Nat) : Int) = c.axis 5 ∧
    (((pack c).toNat / 2 ^ 22 % 2 ^ 5 : Nat) : Int) = c.axis 4 ∧
    (((pack c).toNat / 2 ^ 17 % 2 ^ 5 : Nat) : Int) = c.axis 3 ∧
    (((pack c).toNat / 2 ^ 12 % 2 ^ 5 : Nat) : Int) = c.axis 2 ∧
    (((pack c).toNat / 2 ^ 6 % 2 ^ 6 : Nat) : Int) = c.axis 1 ∧
    (((pack c).toNat % 2 ^ 6 : Nat) : Int) = c.axis 0 ∧
    (stateBytes (pack c)).length = 8 ∧
    ∀ (k : Nat) (hk : k < (stateBytes (pack c)).length),
      ((stateBytes (pack c))[k]).toNat = (pack c).toNat / 2 ^ (56 - 8 * k) % 2 ^ 8

/-- R66: Unpack undoes Pack for every state; Pack after Unpack clears bits 47:36 and nothing else; and
Unpack answers BAD_STATE exactly when A6 or A7 is `10`. -/
def Obligations.UnpackPack : Prop :=
  (∀ c : ControllerState, unpack (pack c) = some c) ∧
  (∀ (w : StateWord) (c : ControllerState), unpack w = some c →
    pack c = w &&& ~~~0x0000FFF000000000#64) ∧
  (∀ w : StateWord, unpack w = none ↔
    w.toNat / 2 ^ 32 % 4 = 2 ∨ w.toNat / 2 ^ 34 % 4 = 2)

/-- R67: on input, bits 47:36 affect no result of any command that takes a STATE operand; on output, in
the DECODE response, they are 0. -/
def Obligations.ReservedStateBitsIgnored : Prop :=
  (∀ (w w' : StateWord) (s : State), agreeOffReserved w w' →
    exec (.encode w) s = exec (.encode w') s ∧ exec (.init w) s = exec (.init w') s ∧
    exec (.step w) s = exec (.step w') s) ∧
  (∀ (f : Frame) (s : State), ∃ (t : State) (v : StateWord), exec (.decode f) s = .next t ∧
    t.resp = s.resp ++ 0x00 :: stateBytes v ∧ v &&& 0x0000FFF000000000#64 = 0#64)

/-! ### The Wire Codec -/

/-- R100 to R105: the six analog axes of a decoded frame, by the masks and shifts of the rules, by their
bit slices, and each in its range. -/
def Obligations.DecodeAnalogAxes : Prop :=
  ∀ (p : Params) (f : Frame),
    (wireDecode p f).axis 0 = (f.f0 &&& 0x3F).toNat ∧
    (wireDecode p f).axis 1 = (f.f1 &&& 0x3F).toNat ∧
    (wireDecode p f).axis 2 = (((f.f2 &&& 0x60) >>> 2) ||| ((f.f3 &&& 0xE0) >>> 5)).toNat ∧
    (wireDecode p f).axis 3
      = (((f.f0 &&& 0xC0) >>> 3) ||| ((f.f1 &&& 0xC0) >>> 5) ||| ((f.f2 &&& 0x80) >>> 7)).toNat ∧
    (wireDecode p f).axis 4 = (f.f2 &&& 0x1F).toNat ∧
    (wireDecode p f).axis 5 = (f.f3 &&& 0x1F).toNat ∧
    (wireDecode p f).axis 0 = (f.f0.toNat % 64 : Nat) ∧
    (wireDecode p f).axis 1 = (f.f1.toNat % 64 : Nat) ∧
    (wireDecode p f).axis 2 = (f.f2.toNat / 32 % 4 * 8 + f.f3.toNat / 32 : Nat) ∧
    (wireDecode p f).axis 3
      = (f.f0.toNat / 64 * 8 + f.f1.toNat / 64 * 2 + f.f2.toNat / 128 : Nat) ∧
    (wireDecode p f).axis 4 = (f.f2.toNat % 32 : Nat) ∧
    (wireDecode p f).axis 5 = (f.f3.toNat % 32 : Nat) ∧
    (∀ slot : Fin 8, slotMin slot ≤ (wireDecode p f).axis slot ∧
      (wireDecode p f).axis slot ≤ slotMax slot)

/-- R106 to R109: the digital word is the complement of the big-endian wire word; buttons are its bits
with the D-pad positions cleared; each D-pad axis is its positive bit minus its negative bit. -/
def Obligations.DecodeDigital : Prop :=
  ∀ (p : Params) (f : Frame),
    digitalWord f = ~~~((f.f4.setWidth 16 <<< 8) ||| f.f5.setWidth 16) ∧
    (∀ i : Fin 16, bitAt (wireDecode p f).buttons i = (bitAt (digitalWord f) i &&
      !decide (i ∈ [p.dpadXPos, p.dpadXNeg, p.dpadYPos, p.dpadYNeg]))) ∧
    (wireDecode p f).axis 6 = (bitAt (digitalWord f) p.dpadXPos).toInt
      - (bitAt (digitalWord f) p.dpadXNeg).toInt ∧
    (wireDecode p f).axis 7 = (bitAt (digitalWord f) p.dpadYPos).toInt
      - (bitAt (digitalWord f) p.dpadYNeg).toInt

/-- R110: the result of Decode is always a valid Controller State (R22): axes in range, no button at a
D-pad position. -/
def Obligations.DecodedStateValid : Prop :=
  ∀ (p : Params) (f : Frame), p.validState (wireDecode p f) = true ∧
    ∀ slot : Fin 8, slotMin slot ≤ (wireDecode p f).axis slot ∧
      (wireDecode p f).axis slot ≤ slotMax slot

/-- R111 to R114: frame bytes 0 to 3 of an encoded state, by the masks and shifts of the rules and by
their bit slices. -/
def Obligations.EncodeAnalogBytes : Prop :=
  ∀ (p : Params) (c : ControllerState),
    (wireEncode p c).f0 = (c.a0.setWidth 8 &&& 0x3F) ||| ((c.a3.setWidth 8 &&& 0x18) <<< 3) ∧
    (wireEncode p c).f1 = (c.a1.setWidth 8 &&& 0x3F) ||| ((c.a3.setWidth 8 &&& 0x06) <<< 5) ∧
    (wireEncode p c).f2 = ((c.a3.setWidth 8 &&& 0x01) <<< 7) |||
      ((c.a2.setWidth 8 &&& 0x18) <<< 2) ||| (c.a4.setWidth 8 &&& 0x1F) ∧
    (wireEncode p c).f3 = ((c.a2.setWidth 8 &&& 0x07) <<< 5) ||| (c.a5.setWidth 8 &&& 0x1F) ∧
    (wireEncode p c).f0.toNat = c.a3.toNat / 8 * 64 + c.a0.toNat ∧
    (wireEncode p c).f1.toNat = c.a3.toNat / 2 % 4 * 64 + c.a1.toNat ∧
    (wireEncode p c).f2.toNat = c.a3.toNat % 2 * 128 + c.a2.toNat / 8 * 32 + c.a4.toNat ∧
    (wireEncode p c).f3.toNat = c.a2.toNat % 8 * 32 + c.a5.toNat

/-- R115, R116: under R8, bit by bit, the wire word of an encoded state is the complement of: at each D-pad
position, whether its axis points that way; at every other position, the button bit. Button bits at
D-pad positions never reach the wire. -/
def Obligations.EncodeDigital : Prop :=
  ∀ (p : Params) (c : ControllerState), p.wf = true →
    bitAt (wireEncode p c).wireWord p.dpadXPos = !decide (c.axis 6 = 1) ∧
    bitAt (wireEncode p c).wireWord p.dpadXNeg = !decide (c.axis 6 = -1) ∧
    bitAt (wireEncode p c).wireWord p.dpadYPos = !decide (c.axis 7 = 1) ∧
    bitAt (wireEncode p c).wireWord p.dpadYNeg = !decide (c.axis 7 = -1) ∧
    ∀ i : Fin 16, i ∉ [p.dpadXPos, p.dpadXNeg, p.dpadYPos, p.dpadYNeg] →
      bitAt (wireEncode p c).wireWord i = !bitAt c.buttons i

/-- R121: under R8, the round trip, state first, for every valid Controller State: decoding its encoding
gives it back. -/
def Obligations.DecodeEncodedState : Prop :=
  ∀ (p : Params) (c : ControllerState), p.wf = true → p.validState c = true →
    wireDecode p (wireEncode p c) = c

/-- R122: under R8, the round trip, frame first. Bytes 0 to 3 come back; bytes 4 and 5 come back except that a
D-pad axis whose two wire bits are both 0 comes back with both 1; so the frame comes back exactly when
no axis has both pressed, and every frame Encode produces comes back. -/
def Obligations.EncodeDecodedFrame : Prop :=
  ∀ (p : Params) (f : Frame) (c : ControllerState), p.wf = true →
    (wireEncode p (wireDecode p f)).f0 = f.f0 ∧ (wireEncode p (wireDecode p f)).f1 = f.f1 ∧
    (wireEncode p (wireDecode p f)).f2 = f.f2 ∧ (wireEncode p (wireDecode p f)).f3 = f.f3 ∧
    (∀ i : Fin 16, bitAt (wireEncode p (wireDecode p f)).wireWord i =
      (bitAt f.wireWord i ||
        (bothXPressed p f && decide (i ∈ [p.dpadXPos, p.dpadXNeg])) ||
        (bothYPressed p f && decide (i ∈ [p.dpadYPos, p.dpadYNeg])))) ∧
    (wireEncode p (wireDecode p f) = f ↔ bothXPressed p f = false ∧ bothYPressed p f = false) ∧
    wireEncode p (wireDecode p (wireEncode p c)) = wireEncode p c

/-- R123: whatever the digital bytes are, frame bytes 0 to 3 and the six analog axes determine each
other, and every tuple of axis values is reached. -/
def Obligations.AnalogBijection : Prop :=
  ∀ (p : Params) (f4 f5 : Byte),
    Function.Bijective (fun b : Byte × Byte × Byte × Byte =>
      let c := wireDecode p ⟨b.1, b.2.1, b.2.2.1, b.2.2.2, f4, f5⟩
      (c.a0, c.a1, c.a2, c.a3, c.a4, c.a5))

/-! ### What each command does -/

/-- R119: DECODE completes in every state. The response is 0x00 and the packed decoded state, big-endian;
PARSER is Idle; nothing else changes. A wire word of 0x0000 gives every button but the D-pad positions,
and both D-pad axes 0. -/
def Obligations.ExecDecode : Prop :=
  (∀ (f : Frame) (s : State), exec (.decode f) s = .next
    { s with resp := s.resp ++ 0x00 :: stateBytes (pack (wireDecode s.params f)), parser := .idle }) ∧
  (∀ (f : Frame) (p : Params), f.f4 = 0 → f.f5 = 0 → (wireDecode p f).buttons = ~~~p.dpadMask ∧
    (wireDecode p f).axis 6 = 0 ∧ (wireDecode p f).axis 7 = 0)

/-- R120: ENCODE completes on every valid STATE operand with the frame of the unpacked state, frame[0]
first, and nothing else changes; on an invalid one it sends the byte 0x02 and no frame, records the
error in STATUS, and LAST and EVQ stay. -/
def Obligations.ExecEncode : Prop :=
  ∀ (w : StateWord) (s : State),
    (Instr.wellFormed (.encode w) = true → ∃ c f, unpack w = some c ∧ wireEncode s.params c = f ∧
      exec (.encode w) s = .next
        { s with resp := s.resp ++ [0x00, f.f0, f.f1, f.f2, f.f3, f.f4, f.f5], parser := .idle }) ∧
    (Instr.wellFormed (.encode w) = false → ∃ st, recordsError s.status st 0b10 ∧
      exec (.encode w) s = .next
        { s with resp := s.resp ++ [0x02], status := st, parser := .idle })

/-- R137: INIT completes on every valid STATE operand, room or not: LAST is the unpacked state, the
response is 0x00, EVQ and everything else stay; on an invalid operand it is BAD_STATE, and LAST is
unwritten. -/
def Obligations.ExecInit : Prop :=
  ∀ (w : StateWord) (s : State),
    (Instr.wellFormed (.init w) = true → ∃ c, unpack w = some c ∧
      exec (.init w) s = .next { s with last := c, resp := s.resp ++ [0x00], parser := .idle }) ∧
    (Instr.wellFormed (.init w) = false → ∃ st, recordsError s.status st 0b10 ∧
      exec (.init w) s = .next
        { s with resp := s.resp ++ [0x02], status := st, parser := .idle })

/-- R135: STEP with room completes on every valid STATE operand: Diff's events are appended, LAST is the
operand whole, whether or not there were events, the response is 0x00, and nothing else changes; on an
invalid operand it is BAD_STATE, and LAST and EVQ stay. -/
def Obligations.ExecStep : Prop :=
  ∀ (w : StateWord) (s : State), s.hasRoom = true →
    (Instr.wellFormed (.step w) = true → ∃ c, unpack w = some c ∧
      exec (.step w) s = .next
        { s with evq := s.evq ++ diff s.params s.last c, last := c,
                 resp := s.resp ++ [0x00], parser := .idle }) ∧
    (Instr.wellFormed (.step w) = false → ∃ st, recordsError s.status st 0b10 ∧
      exec (.step w) s = .next
        { s with resp := s.resp ++ [0x02], status := st, parser := .idle })

/-- R136: DECODE_STEP with room completes on every frame: the events from LAST to the decoded state are
appended, LAST is the decoded state, which is valid, the response is 0x00, and nothing else changes.
Held or not, its effect equals that of STEP with the decoded state. -/
def Obligations.ExecDecodeStep : Prop :=
  ∀ (f : Frame) (s : State),
    (s.hasRoom = true → exec (.decodeStep f) s = .next
      { s with evq := s.evq ++ diff s.params s.last (wireDecode s.params f),
               last := wireDecode s.params f, resp := s.resp ++ [0x00], parser := .idle }) ∧
    s.params.validState (wireDecode s.params f) = true ∧
    exec (.decodeStep f) s = exec (.step (pack (wireDecode s.params f))) s

/-- R160: RDSTATUS completes in every state: the response is 0x00 and the byte
`{00000, FIRST_CODE, ERR}`, STATUS is not cleared, and nothing else changes. That byte is 0x00 after
reset, and after any sequence of errors it is 0x03 or 0x05 by the first of them. -/
def Obligations.ExecRdstatus : Prop :=
  (∀ s : State, ∃ b : Byte, b.toNat = s.status.toNat % 8 ∧ exec .rdstatus s = .next
    { s with resp := s.resp ++ [0x00, b], parser := .idle }) ∧
  (∀ p : Params, ∃ t, exec .rdstatus (State.resetWith p) = .next t ∧ t.resp = [0x00, 0x00]) ∧
  (∀ (first : ErrorCode) (later : List ErrorCode) (s : State),
    s.status = (first :: later).foldl statusRecord 0x00 →
    ∃ t, exec .rdstatus s = .next t ∧
      t.resp = s.resp ++ [0x00, if first = .illegalOp then 0x03 else 0x05])

/-- R201, R202, R203: the commands that take a STATE operand all end alike on an invalid one: the one byte
0x02 is sent, ERR is set, FIRST_CODE is written only if ERR was 0, bits 7:3 are zero, PARSER is Idle, and
nothing else changes. It is stated with room for a STEP (R138): that a STEP without room is held before
its operand is looked at is the model's deduction (log 6). -/
def Obligations.BadStateEffect : Prop :=
  ∀ (w : StateWord) (s : State), legalStateWord w = false → s.hasRoom = true →
    ∃ st : Byte, recordsError s.status st 0b10 ∧
      ∀ i ∈ [Instr.encode w, Instr.init w, Instr.step w], exec i s = .next
        { s with resp := s.resp ++ [0x02], status := st, parser := .idle }

/-- R161: in every state with PARSER Idle and a reserved byte next, the block's move ends in ILLEGAL_OP:
the byte is consumed and nothing after it, the one byte 0x01 is sent, ERR is set, FIRST_CODE is written
only if ERR was 0, PARSER is Idle, and LAST, EVQ and everything else stay. -/
def Obligations.ReservedOpcodeEffect : Prop :=
  ∀ (b : Byte) (rest : List Byte) (s : State),
    s.parser = .idle → s.cmd = b :: rest → (b = 0x00 ∨ 0x07 ≤ b.toNat) →
    ∃ st : Byte, recordsError s.status st 0b01 ∧ blockMove s = .next
      { s with cmd := rest, resp := s.resp ++ [0x01], status := st }

/-- R201, R204: DECODE, DECODE_STEP and RDSTATUS raise nothing, whatever STATUS holds, and a STATE command
raises only on an invalid operand, and then BAD_STATE: an execution that changes STATUS or whose whole
response is an error byte, 0x01 or 0x02, is that of an ENCODE, INIT or STEP with an invalid operand, and
its response is 0x02. -/
def Obligations.OnlyInvalidOperandsRaise : Prop :=
  ∀ (i : Instr) (s t : State), exec i s = .next t →
    (t.status ≠ s.status ∨ t.resp = s.resp ++ [0x01] ∨ t.resp = s.resp ++ [0x02]) →
    i.wellFormed = false ∧ (i.opcode = .encode ∨ i.opcode = .init ∨ i.opcode = .step) ∧
      t.resp = s.resp ++ [0x02]

/-! ### The diff function -/

/-- R131: Diff holds an AxisChanged of a slot exactly when that slot's value differs, with the new value;
no slot is left out; and those events stand in ascending slot order, at most one of a slot. -/
def Obligations.DiffAxisEvents : Prop :=
  ∀ (p : Params) (last new : ControllerState),
    (∀ (slot : Fin 8) (v : Int), Event.axisChanged slot v ∈ diff p last new ↔
      new.axis slot ≠ last.axis slot ∧ v = new.axis slot) ∧
    (∀ (j k : Fin 8) (v w : Int),
      [Event.axisChanged j v, Event.axisChanged k w].Sublist (diff p last new) → j < k)

/-- R132: Diff holds a ButtonChanged of a position exactly when the mask has the position and its bit
differs, with the new level; under R8 no D-pad position and no reserved position gets one; and those
events stand in ascending bit order, at most one of a position. -/
def Obligations.DiffButtonEvents : Prop :=
  ∀ (p : Params) (last new : ControllerState),
    (∀ (i : Fin 16) (pressed : Bool), Event.buttonChanged i pressed ∈ diff p last new ↔
      bitAt p.buttonEventMask i = true ∧ bitAt new.buttons i ≠ bitAt last.buttons i ∧
      pressed = bitAt new.buttons i) ∧
    (p.wf = true → ∀ i ∈ [p.dpadXPos, p.dpadXNeg, p.dpadYPos, p.dpadYNeg, p.reservedPos],
      ∀ pressed, Event.buttonChanged i pressed ∉ diff p last new) ∧
    (∀ (i j : Fin 16) (v w : Bool),
      [Event.buttonChanged i v, Event.buttonChanged j w].Sublist (diff p last new) → i < j)

/-- R141: under R8, no D-pad position and no position outside the mask ever gets a ButtonChanged, and the button
bits there, of LAST and of the operand, have no influence on the events at all. -/
def Obligations.UnmaskedButtonsUnseen : Prop :=
  (∀ (p : Params) (last new : ControllerState) (i : Fin 16) (pressed : Bool), p.wf = true →
    i ∈ [p.dpadXPos, p.dpadXNeg, p.dpadYPos, p.dpadYNeg] ∨ bitAt p.buttonEventMask i = false →
    Event.buttonChanged i pressed ∉ diff p last new) ∧
  (∀ (p : Params) (last new : ControllerState) (b b' : DigitalWord),
    (∀ i : Fin 16, bitAt p.buttonEventMask i = true →
      bitAt b i = bitAt last.buttons i ∧ bitAt b' i = bitAt new.buttons i) →
    diff p { last with buttons := b } { new with buttons := b' } = diff p last new)

/-- R133: a non-empty Diff ends with a FrameComplete and holds no other; an empty one has none; and it is
empty exactly when no axis and no masked button differs. -/
def Obligations.DiffFrameComplete : Prop :=
  ∀ (p : Params) (last new : ControllerState),
    (diff p last new ≠ [] → ∃ ev, ev ≠ [] ∧ diff p last new = ev ++ [.frameComplete] ∧
      Event.frameComplete ∉ ev) ∧
    (diff p last new = [] ↔ (∀ slot : Fin 8, new.axis slot = last.axis slot) ∧
      ∀ i : Fin 16, bitAt p.buttonEventMask i = true →
        bitAt new.buttons i = bitAt last.buttons i)

/-- R134: the events of a Diff stand in strictly ascending order: slots, then button positions, then
FrameComplete. -/
def Obligations.DiffOrder : Prop :=
  ∀ (p : Params) (last new : ControllerState),
    (diff p last new).Pairwise fun a b => a.rank < b.rank

/-- R142, R9: a Diff has at most MAX_EVENTS_PER_STEP events and never exactly one, and that bound is at
most 20 under R8. -/
def Obligations.DiffCount : Prop :=
  ∀ (p : Params) (last new : ControllerState),
    (diff p last new).length ≤ p.maxEventsPerStep ∧ (diff p last new).length ≠ 1 ∧
    (p.wf = true → p.maxEventsPerStep ≤ 20)

/-- R1: the events are what brings a consumer's view from old to new: reading them in order from LAST's
values gives the new values, of every axis and every button of the mask. -/
def Obligations.DiffBringsViewToNew : Prop :=
  ∀ (p : Params) (last new : ControllerState),
    (∀ slot : Fin 8, seenAxis slot (last.axis slot) (diff p last new) = new.axis slot) ∧
    (∀ i : Fin 16, bitAt p.buttonEventMask i = true →
      seenButton i (bitAt last.buttons i) (diff p last new) = bitAt new.buttons i)

/-- R1, R135, R136: if a consumer that reads EVQ to its end sees LAST, it still does after a STEP or a
DECODE_STEP, held or not, with a valid operand or not. -/
def Obligations.QueueLeadsToLast : Prop :=
  ∀ (i : Instr) (s t : State) (v : Fin 8 → Int) (u : Fin 16 → Bool),
    i.opcode = .step ∨ i.opcode = .decodeStep → exec i s = .next t →
    (∀ slot, seenAxis slot (v slot) s.evq = s.last.axis slot) →
    (∀ k, bitAt s.params.buttonEventMask k = true →
      seenButton k (u k) s.evq = bitAt s.last.buttons k) →
    (∀ slot, seenAxis slot (v slot) t.evq = t.last.axis slot) ∧
    (∀ k, bitAt t.params.buttonEventMask k = true →
      seenButton k (u k) t.evq = bitAt t.last.buttons k)

/-- R140: of two STEPs in a row with the same valid word, the second emits nothing and leaves LAST. -/
def Obligations.StepIdempotent : Prop :=
  ∀ (w : StateWord) (s t : State), legalStateWord w = true → s.hasRoom = true → t.hasRoom = true →
    exec (.step w) s = .next t →
    exec (.step w) t = .next { t with resp := t.resp ++ [0x00], parser := .idle }

/-! ### Events and the event port -/

/-- R73, R26: the event words by the formulas of the rule; and while EV_VALID is set, exactly when EVQ
is not empty, the port presents the word of its head. -/
def Obligations.EventWords : Prop :=
  (∀ (slot : Fin 8) (v : Int), (Event.axisChanged slot v).toWord =
    (BitVec.ofNat 16 slot.val <<< 8) ||| (BitVec.ofInt 16 v &&& 0x00FF#16)) ∧
  (∀ (i : Fin 16) (b : Bool), (Event.buttonChanged i b).toWord =
    0x4000#16 ||| (BitVec.ofNat 16 i.val <<< 8) ||| BitVec.ofNat 16 b.toNat) ∧
  Event.frameComplete.toWord = 0x8000#16 ∧
  (∀ s : State, (evValid s = true ↔ s.evq ≠ []) ∧
    (∀ ev evs, s.evq = ev :: evs → evPort s = some ev.toWord) ∧
    (s.evq = [] → evPort s = none))

/-- R74: the word of a legal event has no kind 11, zeros where R73 shows zeros and a slot below 8; and
two legal events with the same word are the same event, so a sink reads the event off the word. -/
def Obligations.EventWordFaithful : Prop :=
  ∀ (p : Params) (a b : Event), eventLegal p a = true → eventLegal p b = true →
    (a.toWord = b.toWord → a = b) ∧
    a.toWord.extractLsb' 14 2 ≠ 0b11#2 ∧ a.toWord.extractLsb' 12 2 = 0#2 ∧
    (a.toWord.extractLsb' 14 2 = 0b00#2 → a.toWord.getLsbD 11 = false) ∧
    (a.toWord.extractLsb' 14 2 = 0b01#2 → a.toWord.extractLsb' 1 7 = 0#7) ∧
    (a.toWord.extractLsb' 14 2 = 0b10#2 → a.toWord.extractLsb' 0 12 = 0#12)

/-- R139: TAKE with EVQ not empty delivers the head of EVQ to the sink and touches nothing else. -/
def Obligations.TakeDeliversHead : Prop :=
  ∀ (s : State) (ev : Event) (evs : List Event), s.evq = ev :: evs →
    applyMove .sinkTake s = .next { s with evq := evs, toSink := s.toSink ++ [ev] }

/-! ### The hold for queue space -/

/-- R138: a STEP or DECODE_STEP completes or is held by the free space alone, whatever its operand:
without `P_EVQ_DEPTH - len(EVQ) >= MAX_EVENTS_PER_STEP` nothing at all happens; with it, PARSER is Idle
and one response has been sent. With an unbounded depth it is never held. Two clauses are the model's,
not the rule's own words: that a STEP with an invalid operand is held too, before BAD_STATE, is log 6,
deduced from "does not depend on its data"; that a held command leaves the whole state unchanged, PARSER
included, is log 5 (DEDUCED). -/
def Obligations.HoldForSpace : Prop :=
  ∀ (w : StateWord) (f : Frame) (s : State), ∀ i ∈ [Instr.step w, Instr.decodeStep f],
    (∀ n, s.params.evqDepth = .bounded n →
      (n : Int) - s.evq.length < s.params.maxEventsPerStep → exec i s = .next s) ∧
    ((∀ n, s.params.evqDepth = .bounded n →
        (n : Int) - s.evq.length ≥ s.params.maxEventsPerStep) →
      ∃ t b, exec i s = .next t ∧ t.parser = .idle ∧ t.resp = s.resp ++ [b])

/-- R138, R244: while a complete STEP or DECODE_STEP is held, moves of the block and of the host, in any
number and order, never complete it: PARSER, LAST, EVQ and STATUS stay, no command byte is received and
no response is added. A block without TAKE and reset never gets past it. That PARSER keeps the held
command whole and that no byte is received behind it is the model's choice (DEDUCED, log 5); that its
operand may be invalid is log 6; the host's moves are those of log 3 and log 4. -/
def Obligations.HeldWithoutTakeForever : Prop :=
  ∀ (n : Nat) (s : State) (i : Instr), s.params.wf = true →
    s.parser.waiting = some i → (i.opcode = .step ∨ i.opcode = .decodeStep) → s.hasRoom = false →
    Move.sinkTake ∉ s.sched → Move.reset ∉ s.sched →
    ∃ t, runSteps n s = .next t ∧ t.parser = s.parser ∧ t.last = s.last ∧
      t.evq = s.evq ∧ t.status = s.status ∧ t.toSink = s.toSink ∧
      t.toHost ++ t.resp = s.toHost ++ s.resp ∧ (∃ sent, t.cmd = s.cmd ++ sent)

/-- R138, R139: TAKEs lift the hold. When a complete STEP or DECODE_STEP stands in PARSER and `k` TAKEs
free the space, the block's move after them is that command's execution on the shortened queue. That a
held command stands whole in PARSER and that the block's move tries it again is the model's choice
(DEDUCED, log 5), its operand not yet looked at (log 6), and so is the order of moves as a list
(log 3). -/
def Obligations.TakesLiftHold : Prop :=
  ∀ (s : State) (i : Instr) (k n : Nat) (ms : List Move), s.params.wf = true →
    s.parser.waiting = some i → (i.opcode = .step ∨ i.opcode = .decodeStep) →
    s.params.evqDepth = .bounded n → k ≤ s.evq.length →
    s.evq.length + s.params.maxEventsPerStep ≤ n + k →
    s.sched = List.replicate k Move.sinkTake ++ Move.block :: ms →
    ∃ t b, runSteps (k + 1) s = .next t ∧
      exec i { s with evq := s.evq.drop k, toSink := s.toSink ++ s.evq.take k, sched := ms }
        = .next t ∧
      t.parser = .idle ∧ t.resp = s.resp ++ [b]

/-! ### The stream, the agents and the whole machine -/

/-- Each step is the next scheduled agent's move, and the block's when none is scheduled (R53, R208; the
schedule is the model's choice, log 3). -/
def Obligations.StepTakesNextMove : Prop :=
  ∀ s : State, s.params.wf = true →
    (∀ m ms, s.sched = m :: ms → step s = applyMove m { s with sched := ms }) ∧
    (s.sched = [] → step s = applyMove .block s)

/-- R28, R47: when no held command stands in PARSER (log 5) and the byte the block receives completes a
command, the step is that command's execution, on the state in which the byte is consumed and PARSER has
received it. -/
def Obligations.StepRunsDecoded : Prop :=
  ∀ (s : State) (ms : List Move) (b : Byte) (rest after : List Byte) (i : Instr),
    s.params.wf = true → s.blockTurn ms → s.parser.waiting = none → s.cmd = b :: rest →
    decode (s.parser.received ++ [b]) = .ok i after →
    step s = exec i { s with cmd := rest, sched := ms, parser := s.parser.push b }

/-- R28, R47: bytes of a command that has not completed have no effect beyond PARSER, which then holds
them. -/
def Obligations.PartialCommandOnlyParser : Prop :=
  ∀ (s : State) (ms : List Move) (b : Byte) (rest : List Byte), s.params.wf = true →
    s.blockTurn ms → s.parser.waiting = none → s.cmd = b :: rest →
    decode (s.parser.received ++ [b]) = .incomplete →
    ∃ q, step s = .next { s with cmd := rest, sched := ms, parser := q } ∧
      q.received = s.parser.received ++ [b]

/-- R60, R28, R47: from PARSER Idle, the bytes of any command on the command channel, received one move
after another (log 4), amount to that command's one execution, and what follows it on the channel is
untouched. -/
def Obligations.StreamRunsCommand : Prop :=
  ∀ (i : Instr) (rest : List Byte) (s : State), s.params.wf = true → s.parser = .idle →
    s.sched = [] → s.cmd = encode i ++ rest →
    ∃ q : Parser, (i.payload = [] → q = .idle) ∧
      (i.payload ≠ [] → q = .collecting i.opcode i.payload) ∧
      runSteps (encode i).length s = exec i { s with cmd := rest, parser := q }

/-- R210, R28: with no command byte there and no complete command in PARSER (log 5), the block's move
changes nothing: it waits and holds its state. -/
def Obligations.IdleBlockWaits : Prop :=
  ∀ (s : State) (ms : List Move), s.params.wf = true → s.blockTurn ms → s.cmd = [] →
    s.parser.waiting = none → step s = .next { s with sched := ms }

/-- R8, R205, R138, R210, R244: a step of a block whose parameters meet R8 always answers a next state: no
command, byte or error stops it; a block whose parameters break R8 is refused. Three clauses are the
model's: that the block's move on a held command (R138) and on an empty channel answers a next state, the
unchanged one, where the spec has the block wait (R210) or the run hang without completing (R244), is log 5
(DEDUCED); that it is `step` that refuses a parameter set R8 refuses is log 2 (DEDUCED); that no step
faults, as no fault exists, is log 11 (DEDUCED from R205). -/
def Obligations.NoStepStops : Prop :=
  ∀ s : State, (s.params.wf = true → ∃ t, step s = .next t) ∧
    (s.params.wf = false → step s = .refused .illFormedParameters)

/-- R240: a reset puts LAST at P_LAST_RESET, EVQ empty, STATUS 0x00 and PARSER Idle and drops the pending
response, whatever was there. -/
def Obligations.ResetEffect : Prop :=
  ∀ s : State, ∃ t, applyMove .reset s = .next t ∧ t.last = s.params.lastReset ∧ t.evq = [] ∧
    t.status = 0x00 ∧ t.parser = .idle ∧ t.resp = []

/-- R30: the values after reset of a block with any parameter set; and the machine's own reset state has
them. -/
def Obligations.ResetValues : Prop :=
  (∀ p : Params, (State.resetWith p).params = p ∧ (State.resetWith p).last = p.lastReset ∧
    (State.resetWith p).evq = [] ∧ (State.resetWith p).status = 0x00 ∧
    (State.resetWith p).parser = .idle ∧ (State.resetWith p).resp = []) ∧
  State.reset = State.resetWith State.reset.params

/-- The invariant holds right after reset, for every parameter set that meets R8 (R8, R30), and so in the
machine's own reset state, whose parameters are the model's choice (log 1). -/
def Obligations.InvAtReset : Prop :=
  (∀ p : Params, p.wf = true → (State.resetWith p).Inv) ∧ State.reset.Inv

/-- R8, R23, R27, R28, R52, R74, R138: every step from a state that meets the invariant leads to one that does:
the parameters meet R8, the queue is within its depth and ends with a FrameComplete, only legal events
are in it and delivered, STATUS has one of its legal values, and PARSER is Idle or short of a whole
command, or holds a whole STEP or DECODE_STEP. That last case is the model's choice (DEDUCED, log 5): it
is where a command held for queue space (R138) stands, since R28 alone has a command execute when its
last byte arrives. -/
def Obligations.InvStep : Prop :=
  ∀ s t : State, s.Inv → step s = .next t → t.Inv

/-- R23, R24, R25: LAST changes only by reset, or by an INIT, STEP or DECODE_STEP that the block's move
executes (one just completed, or one that was held, log 5), with the unpacked or decoded operand as its
whole new value. -/
def Obligations.LastWriters : Prop :=
  ∀ s t : State, step s = .next t → t.last ≠ s.last →
    s.sched.head? = some .reset ∨
    ∃ (ms : List Move) (i : Instr), s.blockTurn ms ∧ s.completes i ∧
      ((∃ w, (i = .init w ∨ i = .step w) ∧ unpack w = some t.last) ∨
       (∃ f, i = .decodeStep f ∧ wireDecode s.params f = t.last))

/-- R24: no command returns LAST to the host. Executions from two states that differ in LAST alone give
the same responses, STATUS and PARSER, and leave everything but LAST and EVQ the same, and for every
command but STEP and DECODE_STEP leave EVQ the same too: LAST is seen through events only. -/
def Obligations.LastSeenThroughEventsOnly : Prop :=
  ∀ (i : Instr) (s t t' : State) (c : ControllerState), exec i s = .next t →
    exec i { s with last := c } = .next t' →
    t'.resp = t.resp ∧ t'.status = t.status ∧ t'.parser = t.parser ∧ t'.cmd = t.cmd ∧
    t'.toSink = t.toSink ∧ t'.toHost = t.toHost ∧ t'.sched = t.sched ∧ t'.params = t.params ∧
    (i.opcode ≠ .step → i.opcode ≠ .decodeStep → t'.evq = t.evq)

/-- R27, R202: once ERR is set, every step but reset keeps it and keeps FIRST_CODE. -/
def Obligations.StatusSticky : Prop :=
  ∀ s t : State, step s = .next t → statusErr s.status = true → s.sched.head? ≠ some .reset →
    statusErr t.status = true ∧ statusFirstCode t.status = statusFirstCode s.status

/-- R52, R26: every step but reset keeps what was delivered and what is queued, in order, and adds at the
tail only: nothing is lost, reordered or put between, and what a step adds ends with a FrameComplete and
holds no other. -/
def Obligations.EventsFifo : Prop :=
  ∀ s t : State, step s = .next t → s.sched.head? ≠ some .reset →
    ∃ new : List Event, t.toSink ++ t.evq = s.toSink ++ s.evq ++ new ∧
      (new = [] ∨ ∃ ev, new = ev ++ [.frameComplete] ∧ ev ≠ [] ∧ Event.frameComplete ∉ ev)

/-- R51, R71, R72: every step but reset keeps the response bytes sent and pending, in order, and adds at
the tail at most one response: a status byte 0x00, 0x01 or 0x02, alone unless it is 0x00. -/
def Obligations.ResponsesInOrder : Prop :=
  ∀ s t : State, step s = .next t → s.sched.head? ≠ some .reset →
    t.toHost ++ t.resp = s.toHost ++ s.resp ∨
    ∃ (b : Byte) (data : List Byte), t.toHost ++ t.resp = s.toHost ++ s.resp ++ b :: data ∧
      (b = 0x00 ∨ ((b = 0x01 ∨ b = 0x02) ∧ data = [])) ∧ data.length ≤ 8 ∧ t.parser = .idle

/-- R208: a command's execution and a TAKE do not conflict: with room for the command, or for a command
that is never held, they give the same state in either order. -/
def Obligations.TakeCommutes : Prop :=
  ∀ (i : Instr) (s t : State), s.evq ≠ [] →
    (s.hasRoom = true ∨ (i.opcode ≠ .step ∧ i.opcode ≠ .decodeStep)) → exec i s = .next t →
    exec i s.sinkTake = .next t.sinkTake

/-- R7, R31: the parameters are no state: no step changes them. The field that holds them is the model's
(log 1). -/
def Obligations.ParamsFixed : Prop :=
  ∀ s t : State, step s = .next t → t.params = s.params

/-- R40, R50, R51: the host's moves and the two channels. A write puts its byte behind the bytes not yet
received and touches nothing else; with a response byte pending, a read takes the oldest and records it
as read, and touches nothing else; with none pending it changes nothing. The channels as lists without a
bound, read and written a byte a move, are the model's choice (log 4, log 7). -/
def Obligations.HostMovesChannels : Prop :=
  ∀ s : State,
    (∀ b : Byte, applyMove (.hostSend b) s = .next { s with cmd := s.cmd ++ [b] }) ∧
    (∀ (b : Byte) (rest : List Byte), s.resp = b :: rest →
      applyMove .hostRecv s = .next { s with resp := rest, toHost := s.toHost ++ [b] }) ∧
    (s.resp = [] → applyMove .hostRecv s = .next s)
end

