-- ==== Sys2Proof/Laws/Bits.lean ====
section
/-!
SUPPORT. The small facts of bits, bytes and fields: concatenation as arithmetic, the byte order of a
STATE word, positions of the digital word, D-pad fields, and what the parameter constraints give.
-/

namespace Sys2Proof

/-- Concatenation puts the first value above the second. -/
theorem toNat_append_add {n m : Nat} (x : BitVec n) (y : BitVec m) :
    (x ++ y).toNat = x.toNat * 2 ^ m + y.toNat := by
  rw [BitVec.toNat_append, ← Nat.shiftLeft_add_eq_or_of_lt y.isLt, Nat.shiftLeft_eq]

/-- The eight bytes of a STATE word make the word again (R45). -/
theorem stateOfBytes_stateByte (w : StateWord) :
    stateOfBytes (stateByte w 0) (stateByte w 1) (stateByte w 2) (stateByte w 3)
      (stateByte w 4) (stateByte w 5) (stateByte w 6) (stateByte w 7) = w := by
  apply BitVec.eq_of_getLsbD_eq
  intro i hi
  simp only [stateOfBytes, stateByte, BitVec.getLsbD_append, BitVec.getLsbD_extractLsb']
  interval_cases i <;> simp

/-- The bytes of a word made of eight bytes are those bytes (R45). -/
theorem stateBytes_stateOfBytes (b0 b1 b2 b3 b4 b5 b6 b7 : Byte) :
    stateBytes (stateOfBytes b0 b1 b2 b3 b4 b5 b6 b7) = [b0, b1, b2, b3, b4, b5, b6, b7] := by
  simp only [stateBytes, stateByte, stateOfBytes, List.cons.injEq, and_true]
  refine ⟨?_, ?_, ?_, ?_, ?_, ?_, ?_, ?_⟩ <;>
  · apply BitVec.eq_of_getLsbD_eq
    intro i hi
    simp only [BitVec.getLsbD_append, BitVec.getLsbD_extractLsb']
    interval_cases i <;> simp

theorem mem_positions (i : Fin 16) : i ∈ positions := by
  revert i; decide

theorem bitAt_ext {x y : DigitalWord} (h : ∀ i, bitAt x i = bitAt y i) : x = y :=
  BitVec.eq_of_getLsbD_eq fun i hi => h ⟨i, hi⟩

@[simp] theorem bitAt_not (x : DigitalWord) (i : Fin 16) : bitAt (~~~x) i = !bitAt x i := by
  simp [bitAt, i.isLt]

@[simp] theorem bitAt_and (x y : DigitalWord) (i : Fin 16) :
    bitAt (x &&& y) i = (bitAt x i && bitAt y i) := by
  simp [bitAt]

@[simp] theorem bitAt_or (x y : DigitalWord) (i : Fin 16) :
    bitAt (x ||| y) i = (bitAt x i || bitAt y i) := by
  simp [bitAt]

@[simp] theorem bitAt_zero (i : Fin 16) : bitAt 0#16 i = false := by
  simp [bitAt]

@[simp] theorem bitAt_bitMask (i j : Fin 16) : bitAt (bitMask i) j = decide (i = j) := by
  revert i j; decide

/-- DPAD_MASK has exactly the four D-pad positions (R9). -/
theorem bitAt_dpadMask (p : Params) (i : Fin 16) :
    bitAt p.dpadMask i = decide (i ∈ [p.dpadXPos, p.dpadXNeg, p.dpadYPos, p.dpadYNeg]) := by
  simp only [Params.dpadMask, bitAt_or, bitAt_bitMask]
  rw [Bool.eq_iff_iff]; simp; tauto

theorem bitAt_orBit (d : DigitalWord) (i : Fin 16) (c : Bool) (j : Fin 16) :
    bitAt (orBit d i c) j = (bitAt d j || (c && decide (i = j))) := by
  unfold orBit; cases c <;> simp

/-- The five constraints of R8. -/
theorem Params.wf_iff (p : Params) : p.wf = true ↔ p.dpadDistinct = true ∧ p.maskClearOfDpad = true ∧
    p.reservedClear = true ∧ p.lastResetValid = true ∧ p.depthSuffices = true := by
  simp [Params.wf, and_assoc]

/-- R8 item 1. -/
theorem Params.wf_nodup {p : Params} (h : p.wf = true) :
    [p.dpadXPos, p.dpadXNeg, p.dpadYPos, p.dpadYNeg].Nodup := by
  simpa only [Params.dpadDistinct, decide_eq_true_eq] using ((Params.wf_iff p).1 h).1

/-- R8 item 2: no D-pad position is in the event mask. -/
theorem Params.wf_mask {p : Params} (h : p.wf = true) {i : Fin 16}
    (hi : i ∈ [p.dpadXPos, p.dpadXNeg, p.dpadYPos, p.dpadYNeg]) :
    bitAt p.buttonEventMask i = false := by
  have hz := ((Params.wf_iff p).1 h).2.1
  rw [Params.maskClearOfDpad, beq_iff_eq] at hz
  have hb := congrArg (fun x => bitAt x i) hz
  rw [bitAt_and, bitAt_dpadMask, decide_eq_true hi, Bool.and_true] at hb
  exact hb.trans (bitAt_zero i)

/-- R8 item 3. -/
theorem Params.wf_reserved {p : Params} (h : p.wf = true) :
    p.reservedPos ∉ [p.dpadXPos, p.dpadXNeg, p.dpadYPos, p.dpadYNeg] ∧
      bitAt p.buttonEventMask p.reservedPos = false := by
  have hr := ((Params.wf_iff p).1 h).2.2.1
  simpa only [Params.reservedClear, Bool.and_eq_true, decide_eq_true_eq, Bool.not_eq_true'] using hr

/-- R22 condition 2, bit by bit. -/
theorem Params.validState_iff (p : Params) (c : ControllerState) : p.validState c = true ↔
    ∀ i ∈ [p.dpadXPos, p.dpadXNeg, p.dpadYPos, p.dpadYNeg], bitAt c.buttons i = false := by
  rw [Params.validState, beq_iff_eq]
  constructor
  · intro h i hi
    have hb := congrArg (fun x => bitAt x i) h
    rw [bitAt_and, bitAt_dpadMask, decide_eq_true hi, Bool.and_true] at hb
    exact hb.trans (bitAt_zero i)
  · intro h
    apply bitAt_ext
    intro i
    rw [bitAt_and, bitAt_dpadMask, show bitAt 0 i = false from bitAt_zero i]
    by_cases hi : i ∈ [p.dpadXPos, p.dpadXNeg, p.dpadYPos, p.dpadYNeg]
    · rw [h i hi, Bool.false_and]
    · rw [decide_eq_false hi, Bool.and_false]

theorem Ternary.ofField_toField (x : Ternary) : Ternary.ofField x.toField = some x := by
  cases x <;> decide

theorem Ternary.ofField_eq_some {v : BitVec 2} {x : Ternary} :
    Ternary.ofField v = some x ↔ v = x.toField := by
  cases x <;> revert v <;> decide

/-- The field `10` alone has no ternary value (R66). -/
theorem Ternary.ofField_eq_none {v : BitVec 2} : Ternary.ofField v = none ↔ v = 0b10#2 := by
  revert v; decide

theorem Ternary.toInt_ofPair (p n : Bool) : (Ternary.ofPair p n).toInt = p.toInt - n.toInt := by
  revert p n; decide

/-- Unpack answers exactly on the valid STATE words (R66). -/
theorem unpack_isSome (w : StateWord) : (unpack w).isSome = legalStateWord w := by
  have h6 := @Ternary.ofField_eq_none (fieldA6 w)
  have h7 := @Ternary.ofField_eq_none (fieldA7 w)
  rw [Bool.eq_iff_iff]
  simp only [unpack, legalStateWord, Bool.and_eq_true, bne_iff_ne, ne_eq, ← h6, ← h7]
  cases Ternary.ofField (fieldA6 w) <;> cases Ternary.ofField (fieldA7 w) <;> simp

theorem unpack_of_legal {w : StateWord} (h : legalStateWord w = true) : ∃ c, unpack w = some c :=
  Option.isSome_iff_exists.1 ((unpack_isSome w).trans h)

theorem unpack_of_illegal {w : StateWord} (h : legalStateWord w = false) : unpack w = none := by
  rw [← unpack_isSome] at h; simpa using h

theorem legal_of_unpack {w : StateWord} {c : ControllerState} (h : unpack w = some c) :
    legalStateWord w = true := by
  rw [← unpack_isSome, h]; rfl

end Sys2Proof
end

