-- ==== Sys2Proof/Laws/Decode.lean ====
section
/-!
SUPPORT. The opcode map, the operand readers and the decoder, one lemma each for what they can answer.
-/

namespace Sys2Proof

theorem Opcode.ofByte_toByte (o : Opcode) : Opcode.ofByte o.toByte = some o := by
  cases o <;> decide

theorem Opcode.toByte_injective {a b : Opcode} (h : a.toByte = b.toByte) : a = b := by
  have hs := congrArg Opcode.ofByte h
  rwa [ofByte_toByte, ofByte_toByte, Option.some.injEq] at hs

theorem Opcode.ofByte_eq_some {b : Byte} {o : Opcode} (h : Opcode.ofByte b = some o) :
    b = o.toByte := by
  revert b o; decide

/-- The reserved opcode bytes (R62). -/
theorem Opcode.ofByte_eq_none {b : Byte} :
    Opcode.ofByte b = none ↔ b = 0x00 ∨ 0x07 ≤ b.toNat := by
  revert b; decide

theorem Instr.payload_length (i : Instr) : i.payload.length = i.opcode.payloadLength := by
  cases i <;> rfl

theorem takeFrame_bytes (f : Frame) (rest : List Byte) :
    takeFrame (f.bytes ++ rest) = some (f, rest) := rfl

theorem takeState_stateBytes (w : StateWord) (rest : List Byte) :
    takeState (stateBytes w ++ rest) = some (w, rest) := by
  simp [takeState, stateBytes, stateOfBytes_stateByte]

theorem takeFrame_eq_some {l rest : List Byte} {f : Frame} (h : takeFrame l = some (f, rest)) :
    l = f.bytes ++ rest := by
  unfold takeFrame at h
  split at h
  · simp only [Option.some.injEq, Prod.mk.injEq] at h
    obtain ⟨rfl, rfl⟩ := h; rfl
  · cases h

theorem takeState_eq_some {l rest : List Byte} {w : StateWord} (h : takeState l = some (w, rest)) :
    l = stateBytes w ++ rest := by
  unfold takeState at h
  split at h
  · simp only [Option.some.injEq, Prod.mk.injEq] at h
    obtain ⟨rfl, rfl⟩ := h
    rw [stateBytes_stateOfBytes]; rfl
  · cases h

theorem takeFrame_eq_none {l : List Byte} : takeFrame l = none ↔ l.length < 6 := by
  rcases l with _ | ⟨_, _ | ⟨_, _ | ⟨_, _ | ⟨_, _ | ⟨_, _ | ⟨_, l⟩⟩⟩⟩⟩⟩ <;> simp [takeFrame]

theorem takeState_eq_none {l : List Byte} : takeState l = none ↔ l.length < 8 := by
  rcases l with _ | ⟨_, _ | ⟨_, _ | ⟨_, _ | ⟨_, _ | ⟨_, _ | ⟨_, _ | ⟨_, _ | ⟨_, l⟩⟩⟩⟩⟩⟩⟩⟩ <;>
    simp [takeState]

theorem decodeFrameOperand_ok {mk : Frame → Instr} {l rest : List Byte} {i : Instr}
    (h : decodeFrameOperand mk l = .ok i rest) : ∃ f, i = mk f ∧ l = f.bytes ++ rest := by
  unfold decodeFrameOperand at h
  split at h
  · cases h; exact ⟨_, rfl, takeFrame_eq_some ‹_›⟩
  · cases h

theorem decodeStateOperand_ok {mk : StateWord → Instr} {l rest : List Byte} {i : Instr}
    (h : decodeStateOperand mk l = .ok i rest) : ∃ w, i = mk w ∧ l = stateBytes w ++ rest := by
  unfold decodeStateOperand at h
  split at h
  · cases h; exact ⟨_, rfl, takeState_eq_some ‹_›⟩
  · cases h

theorem decodeFrameOperand_incomplete {mk : Frame → Instr} {l : List Byte} :
    decodeFrameOperand mk l = .incomplete ↔ l.length < 6 := by
  rw [← takeFrame_eq_none]; unfold decodeFrameOperand; cases takeFrame l <;> simp

theorem decodeStateOperand_incomplete {mk : StateWord → Instr} {l : List Byte} :
    decodeStateOperand mk l = .incomplete ↔ l.length < 8 := by
  rw [← takeState_eq_none]; unfold decodeStateOperand; cases takeState l <;> simp

/-- After a defined opcode byte nothing is reserved. -/
theorem decodePayload_ne_reserved (op : Opcode) (l : List Byte) (b : Byte) (rest : List Byte) :
    decodePayload op l ≠ .reserved b rest := by
  cases op <;> simp only [decodePayload, decodeFrameOperand, decodeStateOperand] <;>
    first | (split <;> simp) | simp

/-- A command is incomplete exactly while payload bytes are missing (R63). -/
theorem decode_incomplete_iff {op : Opcode} {l : List Byte} :
    decode (op.toByte :: l) = .incomplete ↔ l.length < op.payloadLength := by
  simp only [decode, Opcode.ofByte_toByte]
  cases op <;> simp only [decodePayload, Opcode.payloadLength, decodeFrameOperand_incomplete,
    decodeStateOperand_incomplete]
  simp

end Sys2Proof
end

