-- ==== Sys2Proof/Laws/Events.lean ====
section
/-!
SUPPORT. What the loops of Diff can hold, and how a consumer's view composes.
-/

namespace Sys2Proof.Machine

theorem mem_slots (k : Fin 8) : k ∈ slots := by
  revert k; decide

theorem axisEvent_eq_some {last new : ControllerState} {k : Fin 8} {e : Event} :
    axisEvent last new k = some e ↔
      new.axis k ≠ last.axis k ∧ e = .axisChanged k (new.axis k) := by
  unfold axisEvent; split
  · rename_i h
    simp only [Option.some.injEq, ne_eq, h, not_false_eq_true, true_and]; exact eq_comm
  · rename_i h; simp [h]

theorem buttonEvent_eq_some {p : Params} {last new : ControllerState} {i : Fin 16} {e : Event} :
    buttonEvent p last new i = some e ↔
      (bitAt p.buttonEventMask i = true ∧ bitAt new.buttons i ≠ bitAt last.buttons i) ∧
        e = .buttonChanged i (bitAt new.buttons i) := by
  unfold buttonEvent; split
  · rename_i h
    simp only [Option.some.injEq, h, ne_eq, not_false_eq_true, true_and, and_self]; exact eq_comm
  · rename_i h; simp [h]

/-- The change events of a Diff, all of them. -/
theorem mem_changeEvents {p : Params} {last new : ControllerState} {e : Event} :
    e ∈ changeEvents p last new ↔
      (∃ k, new.axis k ≠ last.axis k ∧ e = .axisChanged k (new.axis k)) ∨
      (∃ i, bitAt p.buttonEventMask i = true ∧ bitAt new.buttons i ≠ bitAt last.buttons i ∧
        e = .buttonChanged i (bitAt new.buttons i)) := by
  simp only [changeEvents, List.mem_append, List.mem_filterMap, mem_slots, mem_positions, true_and,
    axisEvent_eq_some, buttonEvent_eq_some, and_assoc]

theorem mem_withFrameComplete {ev : List Event} {e : Event} :
    e ∈ withFrameComplete ev ↔ e ∈ ev ∨ (ev ≠ [] ∧ e = .frameComplete) := by
  unfold withFrameComplete; split <;> simp_all

theorem withFrameComplete_eq_nil {ev : List Event} : withFrameComplete ev = [] ↔ ev = [] := by
  unfold withFrameComplete; split <;> simp_all

theorem seenAxis_append (k : Fin 8) (v : Int) (a b : List Event) :
    seenAxis k v (a ++ b) = seenAxis k (seenAxis k v a) b := by
  simp [seenAxis]

theorem seenButton_append (i : Fin 16) (v : Bool) (a b : List Event) :
    seenButton i v (a ++ b) = seenButton i (seenButton i v a) b := by
  simp [seenButton]

end Sys2Proof.Machine
end

