-- ==== Sys2Proof/Laws/State.lean ====
section
/-!
SUPPORT. One lemma per field per update of the state, so that no proof unfolds a record update.
-/

namespace Sys2Proof.Machine.State

variable (s : State)

@[simp] theorem respondOk_params (data : List Byte) : (s.respondOk data).params = s.params := rfl
@[simp] theorem respondOk_last (data : List Byte) : (s.respondOk data).last = s.last := rfl
@[simp] theorem respondOk_evq (data : List Byte) : (s.respondOk data).evq = s.evq := rfl
@[simp] theorem respondOk_status (data : List Byte) : (s.respondOk data).status = s.status := rfl
@[simp] theorem respondOk_parser (data : List Byte) : (s.respondOk data).parser = .idle := rfl
@[simp] theorem respondOk_cmd (data : List Byte) : (s.respondOk data).cmd = s.cmd := rfl
@[simp] theorem respondOk_resp (data : List Byte) : (s.respondOk data).resp = s.resp ++ okByte :: data :=
  rfl
@[simp] theorem respondOk_toSink (data : List Byte) : (s.respondOk data).toSink = s.toSink := rfl
@[simp] theorem respondOk_toHost (data : List Byte) : (s.respondOk data).toHost = s.toHost := rfl
@[simp] theorem respondOk_sched (data : List Byte) : (s.respondOk data).sched = s.sched := rfl

@[simp] theorem raiseError_params (code : ErrorCode) : (s.raiseError code).params = s.params :=
  rfl
@[simp] theorem raiseError_last (code : ErrorCode) : (s.raiseError code).last = s.last := rfl
@[simp] theorem raiseError_evq (code : ErrorCode) : (s.raiseError code).evq = s.evq := rfl
@[simp] theorem raiseError_status (code : ErrorCode) : (s.raiseError code).status = statusRecord s.status code :=
  rfl
@[simp] theorem raiseError_parser (code : ErrorCode) : (s.raiseError code).parser = .idle := rfl
@[simp] theorem raiseError_cmd (code : ErrorCode) : (s.raiseError code).cmd = s.cmd := rfl
@[simp] theorem raiseError_resp (code : ErrorCode) : (s.raiseError code).resp = s.resp ++ [code.toByte] :=
  rfl
@[simp] theorem raiseError_toSink (code : ErrorCode) : (s.raiseError code).toSink = s.toSink :=
  rfl
@[simp] theorem raiseError_toHost (code : ErrorCode) : (s.raiseError code).toHost = s.toHost :=
  rfl
@[simp] theorem raiseError_sched (code : ErrorCode) : (s.raiseError code).sched = s.sched := rfl

@[simp] theorem adopt_params (new : ControllerState) : (s.adopt new).params = s.params := rfl
@[simp] theorem adopt_last (new : ControllerState) : (s.adopt new).last = new := rfl
@[simp] theorem adopt_evq (new : ControllerState) : (s.adopt new).evq = s.evq ++ diff s.params s.last new :=
  rfl
@[simp] theorem adopt_status (new : ControllerState) : (s.adopt new).status = s.status := rfl
@[simp] theorem adopt_parser (new : ControllerState) : (s.adopt new).parser = s.parser := rfl
@[simp] theorem adopt_cmd (new : ControllerState) : (s.adopt new).cmd = s.cmd := rfl
@[simp] theorem adopt_resp (new : ControllerState) : (s.adopt new).resp = s.resp := rfl
@[simp] theorem adopt_toSink (new : ControllerState) : (s.adopt new).toSink = s.toSink := rfl
@[simp] theorem adopt_toHost (new : ControllerState) : (s.adopt new).toHost = s.toHost := rfl
@[simp] theorem adopt_sched (new : ControllerState) : (s.adopt new).sched = s.sched := rfl

@[simp] theorem setLast_params (new : ControllerState) : (s.setLast new).params = s.params := rfl
@[simp] theorem setLast_last (new : ControllerState) : (s.setLast new).last = new := rfl
@[simp] theorem setLast_evq (new : ControllerState) : (s.setLast new).evq = s.evq := rfl
@[simp] theorem setLast_status (new : ControllerState) : (s.setLast new).status = s.status := rfl
@[simp] theorem setLast_parser (new : ControllerState) : (s.setLast new).parser = s.parser := rfl
@[simp] theorem setLast_cmd (new : ControllerState) : (s.setLast new).cmd = s.cmd := rfl
@[simp] theorem setLast_resp (new : ControllerState) : (s.setLast new).resp = s.resp := rfl
@[simp] theorem setLast_toSink (new : ControllerState) : (s.setLast new).toSink = s.toSink := rfl
@[simp] theorem setLast_toHost (new : ControllerState) : (s.setLast new).toHost = s.toHost := rfl
@[simp] theorem setLast_sched (new : ControllerState) : (s.setLast new).sched = s.sched := rfl

@[simp] theorem pushByte_params (b : Byte) : (s.pushByte b).params = s.params := rfl
@[simp] theorem pushByte_last (b : Byte) : (s.pushByte b).last = s.last := rfl
@[simp] theorem pushByte_evq (b : Byte) : (s.pushByte b).evq = s.evq := rfl
@[simp] theorem pushByte_status (b : Byte) : (s.pushByte b).status = s.status := rfl
@[simp] theorem pushByte_parser (b : Byte) : (s.pushByte b).parser = s.parser.push b := rfl
@[simp] theorem pushByte_cmd (b : Byte) : (s.pushByte b).cmd = s.cmd := rfl
@[simp] theorem pushByte_resp (b : Byte) : (s.pushByte b).resp = s.resp := rfl
@[simp] theorem pushByte_toSink (b : Byte) : (s.pushByte b).toSink = s.toSink := rfl
@[simp] theorem pushByte_toHost (b : Byte) : (s.pushByte b).toHost = s.toHost := rfl
@[simp] theorem pushByte_sched (b : Byte) : (s.pushByte b).sched = s.sched := rfl

@[simp] theorem hostSend_params (b : Byte) : (s.hostSend b).params = s.params := rfl
@[simp] theorem hostSend_last (b : Byte) : (s.hostSend b).last = s.last := rfl
@[simp] theorem hostSend_evq (b : Byte) : (s.hostSend b).evq = s.evq := rfl
@[simp] theorem hostSend_status (b : Byte) : (s.hostSend b).status = s.status := rfl
@[simp] theorem hostSend_parser (b : Byte) : (s.hostSend b).parser = s.parser := rfl
@[simp] theorem hostSend_cmd (b : Byte) : (s.hostSend b).cmd = s.cmd ++ [b] := rfl
@[simp] theorem hostSend_resp (b : Byte) : (s.hostSend b).resp = s.resp := rfl
@[simp] theorem hostSend_toSink (b : Byte) : (s.hostSend b).toSink = s.toSink := rfl
@[simp] theorem hostSend_toHost (b : Byte) : (s.hostSend b).toHost = s.toHost := rfl
@[simp] theorem hostSend_sched (b : Byte) : (s.hostSend b).sched = s.sched := rfl

@[simp] theorem hostRecv_params : s.hostRecv.params = s.params := by
  cases h : s.resp <;> simp [hostRecv, h]
@[simp] theorem hostRecv_last : s.hostRecv.last = s.last := by
  cases h : s.resp <;> simp [hostRecv, h]
@[simp] theorem hostRecv_evq : s.hostRecv.evq = s.evq := by
  cases h : s.resp <;> simp [hostRecv, h]
@[simp] theorem hostRecv_status : s.hostRecv.status = s.status := by
  cases h : s.resp <;> simp [hostRecv, h]
@[simp] theorem hostRecv_parser : s.hostRecv.parser = s.parser := by
  cases h : s.resp <;> simp [hostRecv, h]
@[simp] theorem hostRecv_cmd : s.hostRecv.cmd = s.cmd := by
  cases h : s.resp <;> simp [hostRecv, h]
@[simp] theorem hostRecv_resp : s.hostRecv.resp = s.resp.tail := by
  cases h : s.resp <;> simp [hostRecv, h]
@[simp] theorem hostRecv_toSink : s.hostRecv.toSink = s.toSink := by
  cases h : s.resp <;> simp [hostRecv, h]
@[simp] theorem hostRecv_toHost : s.hostRecv.toHost = s.toHost ++ s.resp.head?.toList := by
  cases h : s.resp <;> simp [hostRecv, h]
@[simp] theorem hostRecv_sched : s.hostRecv.sched = s.sched := by
  cases h : s.resp <;> simp [hostRecv, h]

@[simp] theorem sinkTake_params : s.sinkTake.params = s.params := by
  cases h : s.evq <;> simp [sinkTake, h]
@[simp] theorem sinkTake_last : s.sinkTake.last = s.last := by
  cases h : s.evq <;> simp [sinkTake, h]
@[simp] theorem sinkTake_evq : s.sinkTake.evq = s.evq.tail := by
  cases h : s.evq <;> simp [sinkTake, h]
@[simp] theorem sinkTake_status : s.sinkTake.status = s.status := by
  cases h : s.evq <;> simp [sinkTake, h]
@[simp] theorem sinkTake_parser : s.sinkTake.parser = s.parser := by
  cases h : s.evq <;> simp [sinkTake, h]
@[simp] theorem sinkTake_cmd : s.sinkTake.cmd = s.cmd := by
  cases h : s.evq <;> simp [sinkTake, h]
@[simp] theorem sinkTake_resp : s.sinkTake.resp = s.resp := by
  cases h : s.evq <;> simp [sinkTake, h]
@[simp] theorem sinkTake_toSink : s.sinkTake.toSink = s.toSink ++ s.evq.head?.toList := by
  cases h : s.evq <;> simp [sinkTake, h]
@[simp] theorem sinkTake_toHost : s.sinkTake.toHost = s.toHost := by
  cases h : s.evq <;> simp [sinkTake, h]
@[simp] theorem sinkTake_sched : s.sinkTake.sched = s.sched := by
  cases h : s.evq <;> simp [sinkTake, h]

@[simp] theorem assertReset_params : s.assertReset.params = s.params := rfl
@[simp] theorem assertReset_last : s.assertReset.last = s.params.lastReset := rfl
@[simp] theorem assertReset_evq : s.assertReset.evq = [] := rfl
@[simp] theorem assertReset_status : s.assertReset.status = 0x00 := rfl
@[simp] theorem assertReset_parser : s.assertReset.parser = .idle := rfl
@[simp] theorem assertReset_cmd : s.assertReset.cmd = s.cmd := rfl
@[simp] theorem assertReset_resp : s.assertReset.resp = [] := rfl
@[simp] theorem assertReset_toSink : s.assertReset.toSink = s.toSink := rfl
@[simp] theorem assertReset_toHost : s.assertReset.toHost = s.toHost := rfl
@[simp] theorem assertReset_sched : s.assertReset.sched = s.sched := rfl

@[simp] theorem withCommandBytes_params (bytes : List Byte) : (s.withCommandBytes bytes).params = s.params :=
  rfl
@[simp] theorem withCommandBytes_last (bytes : List Byte) : (s.withCommandBytes bytes).last = s.last :=
  rfl
@[simp] theorem withCommandBytes_evq (bytes : List Byte) : (s.withCommandBytes bytes).evq = s.evq :=
  rfl
@[simp] theorem withCommandBytes_status (bytes : List Byte) : (s.withCommandBytes bytes).status = s.status :=
  rfl
@[simp] theorem withCommandBytes_parser (bytes : List Byte) : (s.withCommandBytes bytes).parser = Parser.ofBytes bytes.dropLast :=
  rfl
@[simp] theorem withCommandBytes_cmd (bytes : List Byte) : (s.withCommandBytes bytes).cmd = bytes.getLast?.toList ++ s.cmd :=
  rfl
@[simp] theorem withCommandBytes_resp (bytes : List Byte) : (s.withCommandBytes bytes).resp = s.resp :=
  rfl
@[simp] theorem withCommandBytes_toSink (bytes : List Byte) : (s.withCommandBytes bytes).toSink = s.toSink :=
  rfl
@[simp] theorem withCommandBytes_toHost (bytes : List Byte) : (s.withCommandBytes bytes).toHost = s.toHost :=
  rfl
@[simp] theorem withCommandBytes_sched (bytes : List Byte) : (s.withCommandBytes bytes).sched = .block :: s.sched :=
  rfl

end Sys2Proof.Machine.State
end

