-- ==== Sys2Proof/Laws/Ops.lean ====
section
/-!
SUPPORT. One lemma per shared operation that says all it can do: the hold, the use of a STATE operand,
an execution, the block's move, a step.
-/

namespace Sys2Proof.Machine

theorem hasRoom_bounded {s : State} {n : Nat} (h : s.params.evqDepth = .bounded n) :
    s.hasRoom = decide (s.evq.length + s.params.maxEventsPerStep ≤ n) := by
  simp [State.hasRoom, h]

theorem hasRoom_unbounded {s : State} (h : s.params.evqDepth = .unbounded) : s.hasRoom = true := by
  simp [State.hasRoom, h]

theorem whenRoom_held {s effect : State} (h : s.hasRoom = false) : whenRoom s effect = s := by
  simp [whenRoom, h]

theorem whenRoom_room {s effect : State} (h : s.hasRoom = true) : whenRoom s effect = effect := by
  simp [whenRoom, h]

theorem withStateOperand_some {w : StateWord} {c : ControllerState} (h : unpack w = some c)
    (s : State) (k : ControllerState → State) : withStateOperand w s k = k c := by
  simp [withStateOperand, h]

theorem withStateOperand_none {w : StateWord} (h : unpack w = none) (s : State)
    (k : ControllerState → State) : withStateOperand w s k = s.raiseError .badState := by
  simp [withStateOperand, h]

/-- What an error leaves in STATUS (R202), whatever was there. -/
theorem statusRecord_records (st : Byte) (code : ErrorCode) :
    recordsError st (statusRecord st code) code.toField := by
  cases code <;> revert st <;> unfold recordsError <;> decide

/-- An error after an error changes nothing in STATUS (R27: sticky). -/
theorem statusRecord_sticky (st : Byte) (code : ErrorCode) (h : statusErr st = true) :
    statusErr (statusRecord st code) = true ∧
      statusFirstCode (statusRecord st code) = statusFirstCode st := by
  revert st; cases code <;> decide

theorem statusRecord_legal (st : Byte) (code : ErrorCode) (h : statusLegal st = true) :
    statusLegal (statusRecord st code) = true := by
  revert st; cases code <;> decide

/-- Everything an execution of a command can do to the state: be held, respond, raise BAD_STATE,
write LAST, or emit and adopt. -/
inductive ExecEffect (i : Instr) (s : State) : State → Prop
  | held : s.hasRoom = false → i.opcode = .step ∨ i.opcode = .decodeStep → ExecEffect i s s
  | responds (data : List Byte) : data.length ≤ 8 →
      i.opcode = .decode ∨ i.opcode = .encode ∨ i.opcode = .rdstatus →
      ExecEffect i s (s.respondOk data)
  | raises : i.wellFormed = false → ExecEffect i s (s.raiseError .badState)
  | inits (w : StateWord) (c : ControllerState) : i = .init w → unpack w = some c →
      ExecEffect i s ((s.setLast c).respondOk [])
  | adopts (c : ControllerState) : s.hasRoom = true →
      (∃ w, i = .step w ∧ unpack w = some c) ∨ (∃ f, i = .decodeStep f ∧ wireDecode s.params f = c) →
      ExecEffect i s ((s.adopt c).respondOk [])

theorem legal_false_of_unpack {w : StateWord} (h : unpack w = none) : legalStateWord w = false := by
  rw [← unpack_isSome, h]; rfl

/-- The inversion of `exec`. -/
theorem exec_effect {i : Instr} {s t : State} (h : exec i s = .next t) : ExecEffect i s t := by
  cases i <;> simp only [exec, execDecode, execEncode, execInit, execStep, execDecodeStep,
    execRdstatus, withStateOperand, whenRoom, Host.Outcome.next.injEq] at h <;> subst h
  case decode f => exact .responds _ (by simp [stateBytes]) (by simp [Instr.opcode])
  case encode w =>
    split
    · exact .responds _ (by simp [Frame.bytes]) (by simp [Instr.opcode])
    · exact .raises (legal_false_of_unpack ‹_›)
  case init w =>
    split
    · exact .inits _ _ rfl ‹_›
    · exact .raises (legal_false_of_unpack ‹_›)
  case step w =>
    split
    · split
      · exact .adopts _ ‹_› (.inl ⟨_, rfl, ‹_›⟩)
      · exact .raises (legal_false_of_unpack ‹_›)
    · exact .held (by rw [← Bool.not_eq_true]; assumption) (by simp [Instr.opcode])
  case decodeStep f =>
    split
    · exact .adopts _ ‹_› (.inr ⟨_, rfl, rfl⟩)
    · exact .held (by rw [← Bool.not_eq_true]; assumption) (by simp [Instr.opcode])
  case rdstatus => exact .responds _ (by simp) (by simp [Instr.opcode])

/-- Every execution answers a next state (R205). -/
theorem exec_next (i : Instr) (s : State) : ∃ t, exec i s = .next t := by
  cases i <;> exact ⟨_, rfl⟩

theorem blockMove_waiting {s : State} {i : Instr} (h : s.parser.waiting = some i) :
    blockMove s = exec i s := by
  simp [blockMove, h]

theorem blockMove_receive {s : State} {b : Byte} {rest : List Byte} (h : s.parser.waiting = none)
    (hc : s.cmd = b :: rest) : blockMove s = receiveByte b { s with cmd := rest } := by
  simp [blockMove, h, hc]

/-- The inversion of the block's move: it executes the command that waits; or waits itself; or receives a
byte, which completes a command, is reserved, or is kept. -/
theorem blockMove_cases {s t : State} (h : blockMove s = .next t) :
    (∃ i, s.parser.waiting = some i ∧ exec i s = .next t) ∨
    (s.parser.waiting = none ∧ s.cmd = [] ∧ t = s) ∨
    (∃ b rest, s.parser.waiting = none ∧ s.cmd = b :: rest ∧
      ((∃ i after, decode (s.parser.received ++ [b]) = .ok i after ∧
          exec i { s with cmd := rest, parser := s.parser.push b } = .next t) ∨
       ((∃ c after, decode (s.parser.received ++ [b]) = .reserved c after) ∧
          t = State.raiseError { s with cmd := rest } .illegalOp) ∨
       (decode (s.parser.received ++ [b]) = .incomplete ∧
          t = { s with cmd := rest, parser := s.parser.push b }))) := by
  unfold blockMove at h
  split at h
  · rename_i i hi; exact .inl ⟨i, hi, h⟩
  · rename_i hw
    split at h
    · cases h; exact .inr (.inl ⟨hw, ‹_›, rfl⟩)
    · rename_i b rest hc
      refine .inr (.inr ⟨b, rest, hw, hc, ?_⟩)
      unfold receiveByte at h
      split at h
      · rename_i i after hd; exact .inl ⟨i, after, hd, h⟩
      · rename_i c after hd; cases h; exact .inr (.inl ⟨⟨c, after, hd⟩, rfl⟩)
      · rename_i hd; cases h; exact .inr (.inr ⟨hd, rfl⟩)

/-- The block's move always answers a next state. -/
theorem blockMove_next (s : State) : ∃ t, blockMove s = .next t := by
  unfold blockMove
  split
  · exact exec_next _ _
  · split
    · exact ⟨_, rfl⟩
    · unfold receiveByte
      split
      · exact exec_next _ _
      · exact ⟨_, rfl⟩
      · exact ⟨_, rfl⟩

theorem step_of_wf {s : State} (h : s.params.wf = true) : step s = runSchedule s := by
  simp [step, stepOf, h]

/-- On the block's turn a step is the block's move. -/
theorem step_blockTurn {s : State} {ms : List Move} (h : s.params.wf = true) (ht : s.blockTurn ms) :
    step s = blockMove { s with sched := ms } := by
  rw [step_of_wf h, runSchedule]
  rcases ht with hs | ⟨hs, rfl⟩
  · rw [hs]; rfl
  · rw [hs]; cases s; simp only at hs; subst hs; rfl

/-- The inversion of a step: the block's move on the block's turn, or another agent's. -/
theorem step_cases {s t : State} (h : step s = .next t) : s.params.wf = true ∧
    ((∃ ms, s.blockTurn ms ∧ blockMove { s with sched := ms } = .next t) ∨
     (∃ m ms, s.sched = m :: ms ∧ m ≠ .block ∧ applyMove m { s with sched := ms } = .next t)) := by
  unfold step stepOf at h
  split at h
  · rename_i hw
    refine ⟨hw, ?_⟩
    unfold runSchedule at h
    split at h
    · rename_i hs
      exact .inl ⟨[], .inr ⟨hs, rfl⟩, by cases s; simp only at hs; subst hs; exact h⟩
    · rename_i m ms hs
      by_cases hm : m = .block
      · subst hm; exact .inl ⟨ms, .inl hs, h⟩
      · exact .inr ⟨m, ms, hs, hm, h⟩
  · cases h

theorem runSteps_succ {s s' : State} {n : Nat} (h : step s = .next s') :
    runSteps (n + 1) s = runSteps n s' := by
  have hc : Sys2Proof.core.step s = .next s' := h
  simp only [runSteps, Host.Core.run, hc]; rfl

theorem runSteps_zero (s : State) : runSteps 0 s = .next s := rfl

theorem runSteps_one (s : State) : runSteps 1 s = step s := by
  simp only [runSteps, Host.Core.run]
  have hc : Sys2Proof.core.step s = step s := rfl
  rw [hc]; cases step s <;> rfl

end Sys2Proof.Machine
end

