-- ==== Sys2Proof/Laws/PerInstr.lean ====
section
/-!
SUPPORT. Families of facts stated for every command: how long its encoding is and that its opcode byte
says so (spec/30_encoding.md R60, R61, R63).
-/

namespace Sys2Proof.Laws

/-- A command's bytes start with its opcode byte, which names its opcode, and there are as many as that
byte says. -/
def EncodedLength.Statement (i : Instr) : Prop :=
  (encode i).head? = some i.opcode.toByte ∧ Opcode.ofByte i.opcode.toByte = some i.opcode ∧
    (encode i).length = commandLength i.opcode.toByte

theorem EncodedLength.decode (frame : Frame) : EncodedLength.Statement (.decode frame) :=
  ⟨rfl, rfl, rfl⟩

theorem EncodedLength.encode (word : StateWord) : EncodedLength.Statement (.encode word) :=
  ⟨rfl, rfl, rfl⟩

theorem EncodedLength.init (word : StateWord) : EncodedLength.Statement (.init word) :=
  ⟨rfl, rfl, rfl⟩

theorem EncodedLength.step (word : StateWord) : EncodedLength.Statement (.step word) :=
  ⟨rfl, rfl, rfl⟩

theorem EncodedLength.decodeStep (frame : Frame) : EncodedLength.Statement (.decodeStep frame) :=
  ⟨rfl, rfl, rfl⟩

theorem EncodedLength.rdstatus : EncodedLength.Statement .rdstatus :=
  ⟨rfl, rfl, rfl⟩

end Sys2Proof.Laws
end

