-- ==== Sys2Proof/Machine/Assembler.lean ====
section
/-!
DEFINITION. The assembler's reading of a command script (spec/30_encoding.md R75): one command per line,
`;` starts a comment, hexadecimal frame bytes in brackets, tuples in parentheses, raw words after `#`,
raw bytes after `.byte`. What R75 leaves open of its spelling is log 14.
-/

namespace Sys2Proof

/-- A token: a run of other characters, or one of `[ ] ( ) ,` by itself. -/
abbrev Token := List Char

/-- The characters that separate tokens. -/
def isBlank (c : Char) : Bool :=
  c == ' ' || c == '\t' || c == '\r'

/-- The characters that are a token by themselves (R75). -/
def isPunctuation (c : Char) : Bool :=
  c == '[' || c == ']' || c == '(' || c == ')' || c == ','

/-- The token being read, if any, put in front of the tokens after it. -/
def flushToken (cur : Token) (rest : List Token) : List Token :=
  if cur = [] then rest else cur :: rest

/-- The tokens of a line up to its comment; `cur` is the token being read. -/
def tokenize (cur : Token) : List Char → List Token
  | [] => flushToken cur []
  | c :: cs =>
    if c == ';' then flushToken cur []
    else if isBlank c then flushToken cur (tokenize [] cs)
    else if isPunctuation c then flushToken cur ([c] :: tokenize [] cs)
    else tokenize (cur ++ [c]) cs

/-- The digits of a script's numbers, each at the place of its value: the hexadecimal ones of frames and
words, whose first ten are the decimal ones of axis values (R75). -/
def scriptDigits : List Char :=
  "0123456789ABCDEF".toList

/-- The number a run of digits spells in a base of at most sixteen; none when a character is no digit of
that base. A letter counts in either case (log 14). -/
def digitsValue (base : Nat) (t : Token) : Option Nat :=
  (t.mapM fun c => (scriptDigits.take base).idxOf? c.toUpper).map
    (·.foldl (fun value d => base * value + d) 0)

/-- Exactly `n` hexadecimal digits. -/
def hexValue (n : Nat) (t : Token) : Option Nat :=
  if t.length = n then digitsValue 16 t else none

/-- `0x` and exactly `n` hexadecimal digits. -/
def prefixedHex (n : Nat) : Token → Option Nat
  | '0' :: 'x' :: ds => hexValue n ds
  | _ => none

/-- A decimal integer, with a minus sign when negative. -/
def decimalValue : Token → Option Int
  | [] => none
  | '-' :: [] => none
  | '-' :: c :: cs => (digitsValue 10 (c :: cs)).map fun n => -(n : Int)
  | c :: cs => (digitsValue 10 (c :: cs)).map fun n => (n : Int)

/-- A frame operand `[b0 b1 b2 b3 b4 b5]`: six hexadecimal bytes, frame[0] first (R75). -/
def parseFrame : List Token → Option Frame
  | [['['], t0, t1, t2, t3, t4, t5, [']']] =>
    match hexValue 2 t0, hexValue 2 t1, hexValue 2 t2, hexValue 2 t3, hexValue 2 t4, hexValue 2 t5 with
    | some b0, some b1, some b2, some b3, some b4, some b5 =>
      some ⟨BitVec.ofNat 8 b0, BitVec.ofNat 8 b1, BitVec.ofNat 8 b2, BitVec.ofNat 8 b3,
        BitVec.ofNat 8 b4, BitVec.ofNat 8 b5⟩
    | _, _, _, _, _, _ => none
  | _ => none

/-- The eight axes of a tuple. -/
def parseAxes (ts : List Token) (buttons : DigitalWord) : Option AsmTuple :=
  match ts.map decimalValue with
  | [some x0, some x1, some x2, some x3, some x4, some x5, some x6, some x7] =>
    some ⟨x0, x1, x2, x3, x4, x5, x6, x7, buttons⟩
  | _ => none

/-- A STATE operand: `(a0, a1, a2, a3, a4, a5, a6, a7, 0xBBBB)` or `#0xHHHHHHHHHHHHHHHH` (R75). -/
def parseState : List Token → Option AsmOperand
  | ['#' :: t] => (prefixedHex 16 t).map fun n => .raw (BitVec.ofNat 64 n)
  | [['('], t0, [','], t1, [','], t2, [','], t3, [','], t4, [','], t5, [','], t6, [','], t7, [','],
     tb, [')']] =>
    match prefixedHex 4 tb with
    | some b => (parseAxes [t0, t1, t2, t3, t4, t5, t6, t7] (BitVec.ofNat 16 b)).map AsmOperand.tuple
    | none => none
  | _ => none

/-- `.byte 0xNN` (R75). -/
def parseByte : List Token → Option AsmLine
  | [t] => (prefixedHex 2 t).map fun n => .byte (BitVec.ofNat 8 n)
  | _ => none

/-- The mnemonics of R75. -/
def mnemonicDecode : Token := ['D', 'E', 'C', 'O', 'D', 'E']
def mnemonicDecodeStep : Token := ['D', 'E', 'C', 'O', 'D', 'E', '_', 'S', 'T', 'E', 'P']
def mnemonicEncode : Token := ['E', 'N', 'C', 'O', 'D', 'E']
def mnemonicInit : Token := ['I', 'N', 'I', 'T']
def mnemonicStep : Token := ['S', 'T', 'E', 'P']
def mnemonicRdstatus : Token := ['R', 'D', 'S', 'T', 'A', 'T', 'U', 'S']
def directiveByte : Token := ['.', 'b', 'y', 't', 'e']

/-- A command from its tokens; "There are no pseudo-instructions" (R75). -/
def parseLine : List Token → Option AsmLine
  | [] => none
  | m :: ops =>
    if m = mnemonicDecode then (parseFrame ops).map AsmLine.decode
    else if m = mnemonicDecodeStep then (parseFrame ops).map AsmLine.decodeStep
    else if m = mnemonicEncode then (parseState ops).map AsmLine.encode
    else if m = mnemonicInit then (parseState ops).map AsmLine.init
    else if m = mnemonicStep then (parseState ops).map AsmLine.step
    else if m = mnemonicRdstatus then (if ops = [] then some .rdstatus else none)
    else if m = directiveByte then parseByte ops
    else none

/-- The bytes of one script line: none of a blank line or a comment, and no result for a line the
assembler refuses (R75). -/
def assembleLine (line : List Char) : Option (List Byte) :=
  match tokenize [] line with
  | [] => some []
  | t :: ts => (parseLine (t :: ts)).bind assemble

/-- The lines of a script; `cur` is the line being read. -/
def scriptLines (cur : List Char) : List Char → List (List Char)
  | [] => [cur]
  | c :: cs => if c == '\n' then cur :: scriptLines [] cs else scriptLines (cur ++ [c]) cs

/-- The bytes of some lines in order; none when one of them is refused. -/
def assembleLines : List (List Char) → Option (List Byte)
  | [] => some []
  | l :: ls =>
    match assembleLine l, assembleLines ls with
    | some a, some b => some (a ++ b)
    | _, _ => none

/-- The command bytes of a whole script, "one command per line" (R75). -/
def assembleScript (script : List Char) : Option (List Byte) :=
  assembleLines (scriptLines [] script)

end Sys2Proof
end

