-- ==== Sys2Proof/Tests/Slice0.lean ====
section
/-!
SUPPORT. The model's own tests. Expected results come from spec/95_test_vectors.md (the W and V numbers in
the comments, all under profile W, the parameters of `State.reset`) or are written out by hand from the
rule named; then, for every statement with hypotheses, a state and operands that meet them together.
-/

namespace Sys2Proof.Tests

open Sys2Proof Sys2Proof.Machine

/-! ### What is well formed, and what is refused -/

/-- R66: A6 = `10` (V42). -/
theorem test_wellFormed_refuses_a6 : Instr.wellFormed (.step 0x0000000204200820) = false := by decide

/-- R66: A7 = `10` (V43). -/
theorem test_wellFormed_refuses_a7 : Instr.wellFormed (.encode 0x0000000804200820) = false := by decide

/-- R66: both (V45), in INIT. -/
theorem test_wellFormed_refuses_both : Instr.wellFormed (.init 0x0000000A04200820) = false := by decide

/-- R8: profile W meets every constraint. -/
theorem test_profileW_wf : profileW.wf = true := by decide

/-- R8 item 1: two D-pad positions equal. -/
theorem test_params_refuse_equal_positions :
    { profileW with dpadXPos := 1 }.dpadDistinct = false ∧ { profileW with dpadXPos := 1 }.wf = false := by
  decide

/-- R8 item 2: a D-pad position in the mask. -/
theorem test_params_refuse_mask_on_dpad :
    { profileW with buttonEventMask := 0x8000 }.maskClearOfDpad = false ∧
    { profileW with buttonEventMask := 0x8000 }.wf = false := by decide

/-- R8 item 3: the reserved position at a D-pad position, and in the mask. -/
theorem test_params_refuse_reserved :
    { profileW with reservedPos := 15 }.reservedClear = false ∧
    { profileW with reservedPos := 13 }.reservedClear = false ∧
    { profileW with reservedPos := 13 }.wf = false := by decide

/-- R8 item 4: a reset state with a button at a D-pad position. -/
theorem test_params_refuse_reset_state :
    { profileW with lastReset := { centredState with buttons := 0x0001 } }.lastResetValid = false ∧
    { profileW with lastReset := { centredState with buttons := 0x0001 } }.wf = false := by decide

/-- R8 item 5: a depth of 19 is below MAX_EVENTS_PER_STEP = 20 (R9); 20 and unbounded are not. -/
theorem test_params_refuse_depth :
    { profileW with evqDepth := .bounded 19 }.depthSuffices = false ∧
    { profileW with evqDepth := .bounded 19 }.wf = false ∧
    { profileW with evqDepth := .bounded 20 }.wf = true ∧
    { profileW with evqDepth := .unbounded }.wf = true := by decide

/-- R9: profile W's derived constants. -/
theorem test_profileW_constants : profileW.dpadMask = 0xC003 ∧ profileW.maxEventsPerStep = 20 := by decide

/-- R10's table: the name of bit 4, and a position without one. -/
theorem test_profileW_names : profileW.nameOf 4 = some "A" ∧ profileW.nameOf 8 = none := by decide

/-- R75: a tuple of the middle of every range. -/
def sampleTuple : AsmTuple :=
  { x0 := 5, x1 := 60, x2 := 17, x3 := 9, x4 := 30, x5 := 2, x6 := -1, x7 := 1, buttons := 0x2410 }

/-- R75: one value outside its slot's range, for each of the eight checks. -/
theorem test_tuple_refuses_each_slot :
    { sampleTuple with x0 := 64 }.inRange = false ∧ { sampleTuple with x1 := -1 }.inRange = false ∧
    { sampleTuple with x2 := 32 }.inRange = false ∧ { sampleTuple with x3 := 32 }.inRange = false ∧
    { sampleTuple with x4 := -1 }.inRange = false ∧ { sampleTuple with x5 := 32 }.inRange = false ∧
    { sampleTuple with x6 := 2 }.inRange = false ∧ { sampleTuple with x7 := -2 }.inRange = false := by
  decide

/-- R75: an ill-formed line is refused, a raw byte is not. -/
theorem test_line_refused :
    AsmLine.wellFormed (.step (.tuple { sampleTuple with x6 := -2 })) = false ∧
    assemble (.init (.tuple { sampleTuple with x0 := 64 })) = none ∧
    assemble (.byte 0x7E) = some [0x7E] := by decide

/-- V31: a tuple's command bytes. -/
theorem test_assemble_tuple : assemble (.encode (.tuple sampleTuple))
    = some [0x02, 0x24, 0x10, 0x00, 0x07, 0x17, 0x93, 0x1F, 0x05] := by decide

/-- P1, P3: lines of the spec's scripts, with their command bytes. -/
theorem test_script_lines :
    assembleLine "DECODE_STEP [A8 20 10 0A FF EF]   ; LX 40".toList
      = some [0x05, 0xA8, 0x20, 0x10, 0x0A, 0xFF, 0xEF] ∧
    assembleLine "STEP (32,32,0,16,16,0,0,-1, 0x0000)".toList
      = some [0x04, 0x00, 0x00, 0x00, 0x0C, 0x04, 0x20, 0x08, 0x20] ∧
    assembleLine "STEP #0x0000000204200820".toList
      = some [0x04, 0x00, 0x00, 0x00, 0x02, 0x04, 0x20, 0x08, 0x20] ∧
    assembleLine "STEP (32,32,0,16,16,0,0,-2, 0x0000)".toList = none ∧
    assembleLine "STEP (3A,32,0,16,16,0,0,0, 0x0000)".toList = none ∧
    assembleLine ".byte 0x7e".toList = some [0x7E] := by decide

/-- R75: one command per line. -/
theorem test_script :
    assembleScript ".byte 0x7E ; reserved\nRDSTATUS".toList = some [0x7E, 0x06] := by decide

/-! ### Decoding: words written out from R61, R64, R65 -/

/-- P1: DECODE_STEP. -/
theorem test_decode_decodeStep : decode [0x05, 0xA8, 0x20, 0x10, 0x0A, 0xFF, 0xEF, 0x06]
    = .ok (.decodeStep ⟨0xA8, 0x20, 0x10, 0x0A, 0xFF, 0xEF⟩) [0x06] := by decide

/-- V1: DECODE. -/
theorem test_decode_decode : decode [0x01, 0x00, 0x00, 0x00, 0x00, 0xFF, 0xFF]
    = .ok (.decode ⟨0x00, 0x00, 0x00, 0x00, 0xFF, 0xFF⟩) [] := by decide

/-- V30: ENCODE. -/
theorem test_decode_encode : decode [0x02, 0x00, 0x00, 0x00, 0x00, 0x04, 0x20, 0x08, 0x20]
    = .ok (.encode 0x0000000004200820) [] := by decide

/-- P3: INIT. -/
theorem test_decode_init : decode [0x03, 0x00, 0x00, 0x00, 0x01, 0x04, 0x20, 0x08, 0x20]
    = .ok (.init 0x0000000104200820) [] := by decide

/-- P3: STEP with A7 = `11`. -/
theorem test_decode_step : decode [0x04, 0x00, 0x00, 0x00, 0x0C, 0x04, 0x20, 0x08, 0x20]
    = .ok (.step 0x0000000C04200820) [] := by decide

/-- R61: RDSTATUS is the opcode byte alone. -/
theorem test_decode_rdstatus : decode [0x06, 0x01] = .ok .rdstatus [0x01] := by decide

/-- R62: the reserved bytes at the edges of their ranges; R47: a command cut short. -/
theorem test_decode_rejects :
    decode [0x00] = .reserved 0x00 [] ∧ decode [0x07, 0x06] = .reserved 0x07 [0x06] ∧
    decode [0xFF] = .reserved 0xFF [] ∧
    decode [0x01, 0x00, 0x00, 0x00, 0x00, 0xFF] = .incomplete ∧ decode [] = .incomplete := by decide

/-- spec/opcode_table.json: each row's opcode byte with operand bytes of zeros. -/
theorem test_table_words :
    decodeTableWord 8 0x01 = some (.decode ⟨0, 0, 0, 0, 0, 0⟩) ∧
    decodeTableWord 8 0x02 = some (.encode 0) ∧ decodeTableWord 8 0x03 = some (.init 0) ∧
    decodeTableWord 8 0x04 = some (.step 0) ∧
    decodeTableWord 8 0x05 = some (.decodeStep ⟨0, 0, 0, 0, 0, 0⟩) ∧
    decodeTableWord 8 0x06 = some .rdstatus ∧ decodeTableWord 8 0x07 = none := by decide

/-! ### One step on small states -/

/-- `f` of the next state, if there is one. -/
def after {α : Type} (o : Host.Outcome State Fault Refusal) (f : State → α) : Option α :=
  match o with
  | .next s => some (f s)
  | .fault _ => none
  | .refused _ => none

/-- The event words in EVQ. -/
def words (s : State) : List EventWord :=
  s.evq.map Event.toWord

/-- Reset, then the command's bytes received: the next step executes it. -/
def arrive (i : Instr) (s : State) : State :=
  s.withCommandBytes (encode i)

/-- V20: DECODE with every kind of bit set; the reserved bit passes, the Y pair cancels. -/
theorem test_step_decode :
    after (step (arrive (.decode ⟨0x12, 0x34, 0x56, 0x78, 0x9A, 0xBC⟩) State.reset)) State.resp
      = some [0x00, 0x25, 0x40, 0x00, 0x03, 0xC5, 0x81, 0x3D, 0x12] := by decide

/-- V19: DECODE with D-pad right alone: A6 is +1. -/
theorem test_step_decode_right :
    after (step (arrive (.decode ⟨0x60, 0xA0, 0x50, 0xA5, 0x7F, 0xEF⟩) State.reset)) State.resp
      = some [0x00, 0x00, 0x10, 0x00, 0x01, 0x2C, 0x19, 0x58, 0x20] := by decide

/-- V37: ENCODE; a button bit at a D-pad position and STATE bits 47:36 are ignored. -/
theorem test_step_encode :
    after (step (arrive (.encode 0x6410FFF717931F05) State.reset)) State.resp
      = some [0x00, 0x45, 0x3C, 0xDE, 0x22, 0x9B, 0xED] := by decide

/-- V35: ENCODE with A6 = `10`: BAD_STATE, no frame. -/
theorem test_step_encode_badState :
    after (step (arrive (.encode 0x0000000204200820) State.reset)) (fun s => (s.resp, s.status))
      = some ([0x02], 0x05) := by decide

/-- V75: INIT writes LAST and emits nothing. -/
theorem test_step_init :
    after (step (arrive (.init 0x000000000C200820) State.reset)) (fun s => (s.resp, s.last, s.evq))
      = some ([0x00], { centredState with a5 := 1 }, []) := by decide

/-- V60: STEP emits slot 0, slot 5, bit 4 and FrameComplete. V63: a change at a D-pad and a reserved
position emits nothing, and LAST takes the buttons. -/
theorem test_step_step :
    after (step (arrive (.step 0x0010000054200828) State.reset)) (fun s => (s.resp, words s))
      = some ([0x00], [0x0028, 0x050A, 0x4401, 0x8000]) ∧
    after (step (arrive (.step 0x8100000004200820) State.reset)) (fun s => (words s, s.last.buttons))
      = some ([], 0x8100) := by decide

/-- V79: DECODE_STEP with both X pressed, from LAST with dpad-X = 1. -/
theorem test_step_decodeStep :
    after (step (arrive (.decodeStep ⟨0xA0, 0x20, 0x10, 0x00, 0x7F, 0xFD⟩)
      { State.reset with last := { centredState with a6 := .pos } })) (fun s => (words s, s.last))
      = some ([0x0600, 0x8000], centredState) := by decide

/-- V84: RDSTATUS after BAD_STATE and ILLEGAL_OP: FIRST_CODE is kept. -/
theorem test_step_rdstatus :
    after (step (arrive .rdstatus { State.reset with
      status := statusRecord (statusRecord 0x00 .badState) .illegalOp })) State.resp
      = some [0x00, 0x05] := by decide

/-- V81: a reserved opcode. -/
theorem test_step_reserved :
    after (step { State.reset with cmd := [0x00, 0x06] }) (fun s => (s.resp, s.status, s.cmd))
      = some ([0x01], 0x03, [0x06]) := by decide

/-- A state whose queue holds `n` events. -/
def queued (n : Nat) : State :=
  { State.reset with evq := List.replicate n .frameComplete }

/-- V90, V91: with 13 events in a queue of 32 a STEP is held, though it would emit nothing, and PARSER
keeps it; with 12 it runs. -/
theorem test_step_hold :
    after (step (arrive (.step 0x0000000004200820) (queued 13))) (fun s => (s.resp, s.parser.waiting))
      = some ([], some (.step 0x0000000004200820)) ∧
    after (step (arrive (.step 0x0000000004200820) (queued 12))) (fun s => (s.resp, s.parser))
      = some ([0x00], .idle) := by decide

/-- R139: TAKE delivers the head. -/
theorem test_step_take :
    after (step { State.reset with evq := [.buttonChanged 4 true, .frameComplete], sched := [.sinkTake] })
      (fun s => (s.toSink, s.evq)) = some ([.buttonChanged 4 true], [.frameComplete]) := by decide

/-- V85, R240: reset clears STATUS, PARSER and the pending response. -/
theorem test_step_reset :
    after (step { State.reset with status := 0x03, resp := [0x01], parser := .collecting .init [0x01],
                                   sched := [.reset] })
      (fun s => (s.status, s.resp, s.parser)) = some (0x00, [], .idle) := by decide

/-- R20, R73: the word of a negative axis value (V66), and its bytes (R45). -/
theorem test_event_word : (Event.axisChanged 7 (-1)).toWord = 0x07FF ∧
    eventWordBytes 0x07FF = [0x07, 0xFF] := by decide

/-- R8, I20: a block with an ill-formed parameter set is refused. -/
theorem test_step_refuses_params :
    (match step { State.reset with params := { profileW with evqDepth := .bounded 19 } } with
      | .refused .illFormedParameters => true
      | .refused (.notModelled _) => false
      | .next _ => false
      | .fault _ => false) = true := by decide

/-- Each opcode-table row runs as the first command after reset: the response it gives. -/
theorem test_first_after_reset :
    after (step (State.reset.withFetchWord 8 0x01)) (fun s => s.resp.length) = some 9 ∧
    after (step (State.reset.withFetchWord 8 0x02)) (fun s => s.resp.length) = some 7 ∧
    after (step (State.reset.withFetchWord 8 0x03)) (fun s => s.resp) = some [0x00] ∧
    after (step (State.reset.withFetchWord 8 0x04)) (fun s => s.resp) = some [0x00] ∧
    after (step (State.reset.withFetchWord 8 0x05)) (fun s => s.resp) = some [0x00] ∧
    after (step (State.reset.withFetchWord 8 0x06)) (fun s => s.resp) = some [0x00, 0x00] := by decide

/-! ### Witnesses: every statement's hypotheses are met by something -/

/-- LAST with D-pad right, from which the centred state differs. -/
def rightState : ControllerState :=
  { centredState with a6 := .pos }

/-- A STEP of the centred state, complete in PARSER, in front of a queue of `n` events. -/
def waitingStep (n : Nat) : State :=
  { queued n with parser := .collecting .step (stateBytes 0x0000000004200820) }

theorem witness_EncodeOfDecode : decode [0x06, 0x02] = .ok .rdstatus [0x02] := by decide

theorem witness_OpcodeByteDecides : (decode [0x07, 0x01] = .reserved 0x07 [0x01]) ∧
    (0x06 : Byte) ≠ 0x00 ∧ ¬ 0x07 ≤ (0x06 : Byte).toNat ∧ 0x07 ≤ (0x07 : Byte).toNat ∧
    decode (0x05 :: List.replicate 5 0x00) = .incomplete ∧
    decode (0x05 :: List.replicate 6 0x00) ≠ .incomplete ∧
    decode (0x04 :: List.replicate 7 0x00) = .incomplete ∧
    decode (0x04 :: List.replicate 8 0x00) ≠ .incomplete := by decide

theorem witness_AssembleTuple : sampleTuple.inRange = true ∧
    { sampleTuple with x0 := 63, x2 := 31, x6 := -1 }.inRange = true ∧
    { sampleTuple with x0 := 64 }.inRange = false := by decide

theorem witness_UnpackPack : unpack 0x0000FFF004200820 = some centredState ∧
    unpack 0x0000000204200820 = none ∧ unpack 0x0000000804200820 = none := by decide

theorem witness_ReservedStateBitsIgnored :
    agreeOffReserved 0x0000FFF004200820 0x0000000004200820 ∧
    (0x0000FFF004200820 : StateWord) ≠ 0x0000000004200820 := by
  unfold agreeOffReserved; decide

theorem witness_EncodeDigital : profileW.wf = true ∧
    (8 : Fin 16) ∉ [profileW.dpadXPos, profileW.dpadXNeg, profileW.dpadYPos, profileW.dpadYNeg] := by
  decide

theorem witness_DecodeEncodedState :
    profileW.wf = true ∧ profileW.validState { rightState with buttons := 0x3FFC } = true := by decide

theorem witness_EncodeDecodedFrame : profileW.wf = true ∧
    bothXPressed profileW ⟨0, 0, 0, 0, 0x7F, 0xFD⟩ = true ∧
    bothYPressed profileW ⟨0, 0, 0, 0, 0x7F, 0xFD⟩ = false ∧
    bothYPressed profileW ⟨0, 0, 0, 0, 0xBF, 0xFE⟩ = true := by decide

theorem witness_ExecDecode : (⟨0x12, 0x34, 0x56, 0x78, 0x00, 0x00⟩ : Frame).f4 = 0 ∧
    (⟨0x12, 0x34, 0x56, 0x78, 0x00, 0x00⟩ : Frame).f5 = 0 := by decide

theorem witness_ExecEncode : Instr.wellFormed (.encode 0x0000000104200820) = true ∧
    Instr.wellFormed (.encode 0x0000000204200820) = false := by decide

theorem witness_ExecInit : Instr.wellFormed (.init 0x0000000304200820) = true ∧
    Instr.wellFormed (.init 0x0000000804200820) = false := by decide

theorem witness_ExecStep : (queued 12).hasRoom = true ∧
    Instr.wellFormed (.step 0x0000000C04200820) = true ∧
    Instr.wellFormed (.step 0x0000000804200820) = false := by decide

theorem witness_ExecDecodeStep : (queued 12).hasRoom = true := by decide

theorem witness_ExecRdstatus : { State.reset with status := 0x05 }.status
    = [ErrorCode.badState, .illegalOp].foldl statusRecord 0x00 := by decide

theorem witness_BadStateEffect :
    legalStateWord 0x0000000A04200820 = false ∧ State.reset.hasRoom = true := by decide

theorem witness_ReservedOpcodeEffect :
    State.reset.parser = .idle ∧ { State.reset with cmd := [0x07, 0x06] }.cmd = [0x07, 0x06] ∧
    0x07 ≤ (0x07 : Byte).toNat ∧ ({ State.reset with cmd := [0x00] }.cmd = [0x00]) := by decide

/-- One case changes STATUS; in the other ERR was set already and only the response shows the error. -/
theorem witness_OnlyInvalidOperandsRaise :
    (∃ t, exec (.init 0x0000000204200820) State.reset = .next t ∧ t.status ≠ State.reset.status) ∧
    ∃ t, exec (.encode 0x0000000804200820) { State.reset with status := 0x03 } = .next t ∧
      t.status = 0x03 ∧ t.resp = State.reset.resp ++ [0x02] :=
  ⟨⟨_, rfl, by decide⟩, _, rfl, by decide, by decide⟩

theorem witness_UnmaskedButtonsUnseen : profileW.wf = true ∧
    (15 : Fin 16) ∈ [profileW.dpadXPos, profileW.dpadXNeg, profileW.dpadYPos, profileW.dpadYNeg] ∧
    bitAt profileW.buttonEventMask 8 = false ∧
    (∀ i : Fin 16, bitAt profileW.buttonEventMask i = true →
      bitAt 0x8110 i = bitAt 0x0010 i ∧ bitAt 0x4003 i = bitAt 0x0000 i) := by decide

theorem witness_DiffAxisEvents : [Event.axisChanged 6 1, .axisChanged 7 1].Sublist
    (diff profileW centredState { rightState with a7 := .pos }) := by decide

theorem witness_DiffButtonEvents : profileW.wf = true ∧
    (8 : Fin 16) ∈ [profileW.dpadXPos, profileW.dpadXNeg, profileW.dpadYPos, profileW.dpadYNeg,
      profileW.reservedPos] ∧
    [Event.buttonChanged 2 true, .buttonChanged 13 true].Sublist
      (diff profileW centredState { centredState with buttons := 0x2104 }) := by decide

theorem witness_DiffFrameComplete : diff profileW centredState rightState ≠ [] ∧
    diff profileW centredState { centredState with buttons := 0x8100 } = [] := by decide

theorem witness_DiffCount :
    profileW.wf = true ∧ (diff profileW centredState rightState).length = 2 := by decide

/-- A queue that leads a consumer who saw the centred state to `rightState`. -/
def leadingState : State :=
  { State.reset with evq := [.axisChanged 6 1, .frameComplete], last := rightState }

theorem witness_QueueLeadsToLast :
    (∃ t, exec (.step 0x0000000004200820) leadingState = .next t) ∧
    (Instr.step 0x0000000004200820).opcode = .step ∧
    (∀ slot, seenAxis slot (centredState.axis slot) leadingState.evq = leadingState.last.axis slot) ∧
    (∀ k, bitAt leadingState.params.buttonEventMask k = true →
      seenButton k (bitAt 0x0000 k) leadingState.evq = bitAt leadingState.last.buttons k) :=
  ⟨⟨_, rfl⟩, by decide, by decide, by decide⟩

theorem witness_StepIdempotent : legalStateWord 0x0000000104200820 = true ∧ State.reset.hasRoom = true ∧
    ∃ t, exec (.step 0x0000000104200820) State.reset = .next t ∧ t.hasRoom = true ∧ t.evq ≠ [] :=
  ⟨by decide, by decide, _, rfl, by decide, by decide⟩

theorem witness_EventWords : leadingState.evq = .axisChanged 6 1 :: [.frameComplete] ∧
    State.reset.evq = [] := by decide

theorem witness_EventWordFaithful : eventLegal profileW (.axisChanged 0 63) = true ∧
    eventLegal profileW (.axisChanged 7 (-1)) = true ∧
    eventLegal profileW (.buttonChanged 13 false) = true ∧
    eventLegal profileW .frameComplete = true ∧ eventLegal profileW (.axisChanged 2 32) = false := by
  decide

theorem witness_TakeDeliversHead : leadingState.evq = .axisChanged 6 1 :: [.frameComplete] := by decide

theorem witness_HoldForSpace :
    (queued 13).params.evqDepth = .bounded 32 ∧
    (32 : Int) - (queued 13).evq.length < (queued 13).params.maxEventsPerStep ∧
    (32 : Int) - (queued 12).evq.length ≥ (queued 12).params.maxEventsPerStep := by decide

theorem witness_HeldWithoutTakeForever : (waitingStep 13).params.wf = true ∧
    (waitingStep 13).parser.waiting = some (.step 0x0000000004200820) ∧
    (waitingStep 13).hasRoom = false ∧
    Move.sinkTake ∉ { waitingStep 13 with sched := [.hostSend 0x06, .block, .hostRecv] }.sched ∧
    Move.reset ∉ { waitingStep 13 with sched := [.hostSend 0x06, .block, .hostRecv] }.sched := by
  decide

theorem witness_TakesLiftHold : (waitingStep 13).params.wf = true ∧
    (waitingStep 13).parser.waiting = some (.step 0x0000000004200820) ∧
    (waitingStep 13).params.evqDepth = .bounded 32 ∧ 1 ≤ (waitingStep 13).evq.length ∧
    (waitingStep 13).evq.length + (waitingStep 13).params.maxEventsPerStep ≤ 32 + 1 ∧
    { waitingStep 13 with sched := [.sinkTake, .block] }.sched
      = List.replicate 1 Move.sinkTake ++ Move.block :: [] := by decide

theorem witness_StepTakesNextMove : profileW.wf = true ∧
    { State.reset with sched := [.sinkTake] }.sched = .sinkTake :: [] ∧ State.reset.sched = [] := by decide

theorem witness_StepRunsDecoded : State.reset.params.wf = true ∧ State.reset.blockTurn [] ∧
    State.reset.parser.waiting = none ∧ { State.reset with cmd := [0x06] }.cmd = 0x06 :: [] ∧
    decode (State.reset.parser.received ++ [0x06]) = .ok .rdstatus [] :=
  ⟨by decide, .inr ⟨rfl, rfl⟩, by decide, rfl, by decide⟩

/-- R47: two bytes of an INIT received. -/
def partialInit : State :=
  { State.reset with parser := .collecting .init [0x00], cmd := [0x01], sched := [.block, .sinkTake] }

theorem witness_PartialCommandOnlyParser : partialInit.params.wf = true ∧
    partialInit.blockTurn [.sinkTake] ∧ partialInit.parser.waiting = none ∧
    partialInit.cmd = 0x01 :: [] ∧ decode (partialInit.parser.received ++ [0x01]) = .incomplete :=
  ⟨by decide, .inl rfl, by decide, rfl, by decide⟩

theorem witness_StreamRunsCommand : State.reset.params.wf = true ∧ State.reset.parser = .idle ∧
    State.reset.sched = [] ∧
    { State.reset with cmd := encode (.step 0x0000000104200820) ++ [0x06] }.cmd
      = encode (.step 0x0000000104200820) ++ [0x06] := by decide

theorem witness_IdleBlockWaits : State.reset.params.wf = true ∧ State.reset.blockTurn [] ∧
    State.reset.cmd = [] ∧ State.reset.parser.waiting = none :=
  ⟨by decide, .inr ⟨rfl, rfl⟩, rfl, by decide⟩

theorem witness_NoStepStops : State.reset.params.wf = true ∧
    { State.reset with params := { profileW with evqDepth := .bounded 19 } }.params.wf = false := by decide

theorem witness_InvAtReset : profileW.wf = true := by decide

/-- A held STEP in front of a legal, complete queue. -/
theorem witness_InvStep : (waitingStep 13).Inv ∧ ∃ t, step (waitingStep 13) = .next t :=
  ⟨⟨by decide, by decide, by decide, by decide, by decide, by decide, by decide⟩, _, rfl⟩

theorem witness_LastWriters : ∃ t, step { waitingStep 0 with last := rightState } = .next t ∧
    t.last ≠ { waitingStep 0 with last := rightState }.last :=
  ⟨_, rfl, by decide⟩

theorem witness_LastSeenThroughEventsOnly :
    (∃ t t', exec (.step 0x0000000104200820) State.reset = .next t ∧
      exec (.step 0x0000000104200820) { State.reset with last := rightState } = .next t' ∧
      t.evq ≠ t'.evq) ∧
    (Instr.init 0).opcode ≠ .step ∧ (Instr.init 0).opcode ≠ .decodeStep :=
  ⟨⟨_, _, rfl, rfl, by decide⟩, by decide, by decide⟩

theorem witness_StatusSticky : statusErr 0x03 = true ∧ State.reset.sched.head? ≠ some .reset ∧
    ∃ t, step { State.reset with status := 0x03, cmd := [0x06] } = .next t :=
  ⟨by decide, by decide, _, rfl⟩

theorem witness_EventsFifo :
    { leadingState with sched := [.sinkTake] }.sched.head? ≠ some .reset ∧
    ∃ t, step { leadingState with sched := [.sinkTake] } = .next t ∧ t.toSink ≠ [] :=
  ⟨by decide, _, rfl, by decide⟩

theorem witness_ResponsesInOrder : State.reset.sched.head? ≠ some .reset ∧
    ∃ t, step { State.reset with cmd := [0x06], resp := [0x01] } = .next t ∧ t.resp = [0x01, 0x00, 0x00] :=
  ⟨by decide, _, rfl, by decide⟩

theorem witness_TakeCommutes : leadingState.evq ≠ [] ∧ leadingState.hasRoom = true ∧
    (queued 13).evq ≠ [] ∧ (Instr.init 0).opcode ≠ .step ∧ (Instr.init 0).opcode ≠ .decodeStep ∧
    ∃ t, exec (.step 0x0000000004200820) leadingState = .next t :=
  ⟨by decide, by decide, by decide, by decide, by decide, _, rfl⟩

theorem witness_ParamsFixed : ∃ t, step (waitingStep 0) = .next t := ⟨_, rfl⟩

theorem witness_HostMovesChannels : { State.reset with resp := [0x00, 0x05] }.resp = 0x00 :: [0x05] ∧
    State.reset.resp = [] := by decide

end Sys2Proof.Tests
end

section
/-!
SUPPORT. The scope family (spec/00_scope.md R1, R7, R8): what a consumer learns from a Diff and from EVQ,
that no step stops or changes the parameters, and that every step keeps the invariant.
-/

namespace Sys2Proof.Machine

/-! ### What a consumer's view holds after some events -/

/-- When every event leaves a view as it is or sets it to `x`, and the view starts at `x` or some event sets
it, the view ends at `x`. -/
theorem foldl_eq_of_keeps_or_sets {α : Type} {f : α → Event → α} {x : α} {evs : List Event} {v : α}
    (hf : ∀ e ∈ evs, (∀ a, f a e = a) ∨ ∀ a, f a e = x)
    (hx : v = x ∨ ∃ e ∈ evs, ∀ a, f a e = x) : evs.foldl f v = x := by
  induction evs generalizing v with
  | nil => simpa using hx
  | cons e es ih =>
    refine ih (fun e' he' => hf e' (.tail _ he')) ?_
    rcases hx with rfl | ⟨e', he', hset⟩
    · exact .inl ((hf e (.head _)).elim (· _) (· _))
    · rcases List.mem_cons.1 he' with rfl | hmem
      · exact .inl (hset v)
      · exact .inr ⟨e', hmem, hset⟩

theorem axisChanged_mem_diff {p : Params} {last new : ControllerState} {slot : Fin 8} {v : Int} :
    .axisChanged slot v ∈ diff p last new ↔ new.axis slot ≠ last.axis slot ∧ v = new.axis slot := by
  simp only [diff, mem_withFrameComplete, mem_changeEvents, Event.axisChanged.injEq, reduceCtorEq,
    and_false, exists_false, or_false]
  constructor
  · rintro ⟨k, hne, rfl, rfl⟩; exact ⟨hne, rfl⟩
  · rintro ⟨hne, rfl⟩; exact ⟨slot, hne, rfl, rfl⟩

theorem buttonChanged_mem_diff {p : Params} {last new : ControllerState} {i : Fin 16} {b : Bool} :
    .buttonChanged i b ∈ diff p last new ↔
      bitAt p.buttonEventMask i = true ∧ bitAt new.buttons i ≠ bitAt last.buttons i ∧
        b = bitAt new.buttons i := by
  simp only [diff, mem_withFrameComplete, mem_changeEvents, Event.buttonChanged.injEq, reduceCtorEq,
    and_false, exists_false, or_false, false_or]
  constructor
  · rintro ⟨k, hmask, hne, rfl, rfl⟩; exact ⟨hmask, hne, rfl⟩
  · rintro ⟨hmask, hne, rfl⟩; exact ⟨i, hmask, hne, rfl, rfl⟩

theorem seenAxis_diff (p : Params) (last new : ControllerState) (slot : Fin 8) :
    seenAxis slot (last.axis slot) (diff p last new) = new.axis slot := by
  refine foldl_eq_of_keeps_or_sets (fun e he => ?_) ?_
  · cases e with
    | axisChanged k w =>
      by_cases hk : k = slot
      · subst hk
        obtain ⟨-, hw⟩ := axisChanged_mem_diff.1 he
        exact .inr fun _ => (if_pos rfl).trans hw
      · exact .inl fun _ => if_neg hk
    | buttonChanged k w => exact .inl fun _ => rfl
    | frameComplete => exact .inl fun _ => rfl
  · by_cases hd : new.axis slot = last.axis slot
    · exact .inl hd.symm
    · exact .inr ⟨_, axisChanged_mem_diff.2 ⟨hd, rfl⟩, fun _ => if_pos rfl⟩

theorem seenButton_diff {p : Params} {i : Fin 16} (hi : bitAt p.buttonEventMask i = true)
    (last new : ControllerState) :
    seenButton i (bitAt last.buttons i) (diff p last new) = bitAt new.buttons i := by
  refine foldl_eq_of_keeps_or_sets (fun e he => ?_) ?_
  · cases e with
    | axisChanged k w => exact .inl fun _ => rfl
    | buttonChanged k w =>
      by_cases hk : k = i
      · subst hk
        obtain ⟨-, -, hw⟩ := buttonChanged_mem_diff.1 he
        exact .inr fun _ => (if_pos rfl).trans hw
      · exact .inl fun _ => if_neg hk
    | frameComplete => exact .inl fun _ => rfl
  · by_cases hd : bitAt new.buttons i = bitAt last.buttons i
    · exact .inl hd.symm
    · exact .inr ⟨_, buttonChanged_mem_diff.2 ⟨hi, hd, rfl⟩, fun _ => if_pos rfl⟩

/-- Settles O32: every event of a Diff sets a slot or a button to its new value or does not concern it, and
one that differs has its event. -/
theorem diffBringsViewToNew : Obligations.DiffBringsViewToNew :=
  fun p last new => ⟨seenAxis_diff p last new, fun _ hi => seenButton_diff hi last new⟩

/-- Settles O33: a STEP or DECODE_STEP that adopts a state appends the Diff from LAST to it, and any other
leaves EVQ and LAST. -/
theorem queueLeadsToLast : Obligations.QueueLeadsToLast := by
  intro i s t v u hi he hv hu
  cases exec_effect he with
  | held => exact ⟨hv, hu⟩
  | responds => exact ⟨hv, hu⟩
  | raises => exact ⟨hv, hu⟩
  | inits w c hinit => subst hinit; simp [Instr.opcode] at hi
  | adopts c =>
    refine ⟨fun slot => ?_, fun k hk => ?_⟩
    · simp [seenAxis_append, hv, seenAxis_diff]
    · simp only [State.respondOk_evq, State.adopt_evq, State.respondOk_last, State.adopt_last,
        seenButton_append, hu k hk]
      exact seenButton_diff hk s.last c

/-! ### Every move answers a next state, with the parameters it found -/

theorem applyMove_next (m : Move) (s : State) : ∃ t, applyMove m s = .next t := by
  cases m with
  | block => exact blockMove_next s
  | hostSend b => exact ⟨_, rfl⟩
  | hostRecv => exact ⟨_, rfl⟩
  | sinkTake => exact ⟨_, rfl⟩
  | reset => exact ⟨_, rfl⟩

theorem runSchedule_next (s : State) : ∃ t, runSchedule s = .next t := by
  unfold runSchedule
  split
  · exact blockMove_next s
  · exact applyMove_next _ _

theorem step_of_not_wf {s : State} (h : s.params.wf = false) :
    step s = .refused .illFormedParameters := by
  simp [step, stepOf, h]

/-- Settles O46: the parameters alone decide whether a step is refused, and each agent's move answers. -/
theorem noStepStops : Obligations.NoStepStops :=
  fun s => ⟨fun h => step_of_wf h ▸ runSchedule_next s, step_of_not_wf⟩

theorem exec_params {i : Instr} {s t : State} (h : exec i s = .next t) : t.params = s.params := by
  cases exec_effect h <;> rfl

theorem blockMove_params {s t : State} (h : blockMove s = .next t) : t.params = s.params := by
  rcases blockMove_cases h with ⟨i, -, he⟩ | ⟨-, -, rfl⟩ |
    ⟨b, rest, -, -, ⟨i, after, -, he⟩ | ⟨-, rfl⟩ | ⟨-, rfl⟩⟩
  · exact exec_params he
  · rfl
  · exact (exec_params he :)
  · rfl
  · rfl

theorem applyMove_params {m : Move} {s t : State} (h : applyMove m s = .next t) :
    t.params = s.params := by
  cases m with
  | block => exact blockMove_params h
  | hostSend b => cases h; rfl
  | hostRecv => cases h; exact s.hostRecv_params
  | sinkTake => cases h; exact s.sinkTake_params
  | reset => cases h; rfl

/-- Settles O57: the block's move and every other agent's leave the parameters. -/
theorem paramsFixed : Obligations.ParamsFixed := by
  intro s t h
  rcases (step_cases h).2 with ⟨ms, -, hb⟩ | ⟨m, ms, -, -, hm⟩
  · exact (blockMove_params hb :)
  · exact (applyMove_params hm :)

/-! ### What a Diff adds to the queue -/

theorem length_changeEvents_le (p : Params) (last new : ControllerState) :
    (changeEvents p last new).length ≤ 8 + popcount p.buttonEventMask := by
  rw [changeEvents, List.length_append]
  refine Nat.add_le_add (List.length_filterMap_le _ slots) ?_
  rw [List.length_filterMap_eq_countP]
  refine List.countP_mono_left fun i _ hsome => ?_
  obtain ⟨e, he⟩ := Option.isSome_iff_exists.1 hsome
  obtain ⟨⟨hmask, -⟩, -⟩ := buttonEvent_eq_some.1 he
  exact hmask

/-- A Diff fits in the room that R138 asks for (R142). -/
theorem length_diff_le (p : Params) (last new : ControllerState) :
    (diff p last new).length ≤ p.maxEventsPerStep := by
  have hce := length_changeEvents_le p last new
  unfold diff withFrameComplete Params.maxEventsPerStep
  split
  · simp
  · rw [List.length_append]; exact Nat.succ_le_succ hce

theorem toInt_range : ∀ x : Ternary, -1 ≤ x.toInt ∧ x.toInt ≤ 1 := by
  rintro (_ | _ | _) <;> decide

/-- Every axis value of a Controller State lies in its slot's range (R20, R22). -/
theorem axis_range (c : ControllerState) :
    ∀ slot, slotMin slot ≤ c.axis slot ∧ c.axis slot ≤ slotMax slot
  | 0 => ⟨Int.natCast_nonneg _, Int.lt_add_one_iff.1 (Int.ofNat_lt.2 c.a0.isLt)⟩
  | 1 => ⟨Int.natCast_nonneg _, Int.lt_add_one_iff.1 (Int.ofNat_lt.2 c.a1.isLt)⟩
  | 2 => ⟨Int.natCast_nonneg _, Int.lt_add_one_iff.1 (Int.ofNat_lt.2 c.a2.isLt)⟩
  | 3 => ⟨Int.natCast_nonneg _, Int.lt_add_one_iff.1 (Int.ofNat_lt.2 c.a3.isLt)⟩
  | 4 => ⟨Int.natCast_nonneg _, Int.lt_add_one_iff.1 (Int.ofNat_lt.2 c.a4.isLt)⟩
  | 5 => ⟨Int.natCast_nonneg _, Int.lt_add_one_iff.1 (Int.ofNat_lt.2 c.a5.isLt)⟩
  | 6 => toInt_range c.a6
  | 7 => toInt_range c.a7

/-- The block emits legal events only (R74, R141). -/
theorem eventLegal_of_mem_diff {p : Params} {last new : ControllerState} {e : Event}
    (he : e ∈ diff p last new) : eventLegal p e = true := by
  cases e with
  | axisChanged slot v =>
    obtain ⟨-, rfl⟩ := axisChanged_mem_diff.1 he
    exact decide_eq_true (axis_range new slot)
  | buttonChanged i b => exact (buttonChanged_mem_diff.1 he).1
  | frameComplete => rfl

theorem endsWithFrameComplete_iff {evs : List Event} :
    endsWithFrameComplete evs = true ↔ ∀ e, evs.getLast? = some e → e = .frameComplete := by
  unfold endsWithFrameComplete
  cases evs.getLast? <;> simp

theorem endsWithFrameComplete_append {a b : List Event} (ha : endsWithFrameComplete a = true)
    (hb : endsWithFrameComplete b = true) : endsWithFrameComplete (a ++ b) = true := by
  rw [endsWithFrameComplete_iff] at *
  intro e he
  rw [List.getLast?_append, Option.or_eq_some_iff] at he
  exact he.elim (hb e) fun h => ha e h.2

theorem endsWithFrameComplete_tail {evs : List Event} (h : endsWithFrameComplete evs = true) :
    endsWithFrameComplete evs.tail = true := by
  rw [endsWithFrameComplete_iff] at *
  intro e he
  rw [List.getLast?_tail] at he
  split at he
  · cases he
  · exact h e he

theorem endsWithFrameComplete_diff (p : Params) (last new : ControllerState) :
    endsWithFrameComplete (diff p last new) = true := by
  unfold diff withFrameComplete
  split
  · rfl
  · simp [endsWithFrameComplete]

/-! ### PARSER after a byte -/

/-- Only the command its opcode byte names is decoded. -/
theorem opcode_of_decode {op : Opcode} {l rest : List Byte} {i : Instr}
    (h : decode (op.toByte :: l) = .ok i rest) : i.opcode = op := by
  simp only [decode, Opcode.ofByte_toByte] at h
  cases op with
  | decode => obtain ⟨f, rfl, -⟩ := decodeFrameOperand_ok h; rfl
  | encode => obtain ⟨w, rfl, -⟩ := decodeStateOperand_ok h; rfl
  | init => obtain ⟨w, rfl, -⟩ := decodeStateOperand_ok h; rfl
  | step => obtain ⟨w, rfl, -⟩ := decodeStateOperand_ok h; rfl
  | decodeStep => obtain ⟨f, rfl, -⟩ := decodeFrameOperand_ok h; rfl
  | rdstatus => cases h; rfl

/-- No command waits in PARSER exactly while payload bytes are missing. -/
theorem waiting_collecting_eq_none {op : Opcode} {bytes : List Byte} :
    (Parser.collecting op bytes).waiting = none ↔ bytes.length < op.payloadLength := by
  rw [← decode_incomplete_iff, Parser.waiting, Parser.received]
  cases hd : decode (op.toByte :: bytes) with
  | ok i rest => simp
  | incomplete => simp
  | reserved b rest =>
    simp only [decode, Opcode.ofByte_toByte] at hd
    exact (decodePayload_ne_reserved _ _ _ _ hd).elim

theorem parserLegal_push_idle (b : Byte) : parserLegal (Parser.idle.push b) = true := by
  unfold Parser.push
  cases Opcode.ofByte b with
  | none => rfl
  | some op => cases op <;> rfl

/-- A byte that completes no command leaves PARSER short of a whole one. -/
theorem parserLegal_push_of_incomplete {q : Parser} {b : Byte}
    (hd : decode (q.received ++ [b]) = .incomplete) : parserLegal (q.push b) = true := by
  cases q with
  | idle => exact parserLegal_push_idle b
  | collecting op bytes =>
    have hlt : (bytes ++ [b]).length < op.payloadLength := decode_incomplete_iff.1 hd
    simp only [Parser.push, parserLegal, decide_eq_true hlt, Bool.true_or]

/-- The byte that completes a STEP or DECODE_STEP leaves PARSER with exactly that command (log 5). -/
theorem parserLegal_push_of_held {q : Parser} {b : Byte} {i : Instr} {after : List Byte}
    (hw : q.waiting = none) (hd : decode (q.received ++ [b]) = .ok i after)
    (hk : isHeldKind i.opcode = true) : parserLegal (q.push b) = true := by
  cases q with
  | idle => exact parserLegal_push_idle b
  | collecting op bytes =>
    obtain rfl := opcode_of_decode hd
    have hlt := waiting_collecting_eq_none.1 hw
    have hge : ¬ (bytes ++ [b]).length < i.opcode.payloadLength := fun h => by
      rw [← decode_incomplete_iff] at h; cases hd.symm.trans h
    rw [List.length_append, List.length_singleton] at hge
    simp only [Parser.push, parserLegal, hk, List.length_append, List.length_singleton,
      Bool.true_and, Bool.or_eq_true, decide_eq_true_eq]
    omega

/-! ### The invariant under each operation -/

theorem depthRespected_of_length_le {s t : State} (hp : t.params = s.params)
    (hle : t.evq.length ≤ s.evq.length) (h : depthRespected s = true) : depthRespected t = true := by
  unfold depthRespected at *
  rw [hp]
  cases hdepth : s.params.evqDepth with
  | unbounded => rfl
  | bounded n =>
    rw [hdepth] at h
    exact decide_eq_true (hle.trans (of_decide_eq_true h))

namespace State.Inv

/-- The invariant reads the parameters, the events, STATUS and PARSER, and no other field. -/
theorem of_same_events {s t : State} (h : s.Inv) (hp : t.params = s.params) (hq : t.evq = s.evq)
    (hk : t.toSink = s.toSink) (hst : statusLegal t.status = true)
    (hpa : parserLegal t.parser = true) : t.Inv where
  params_wf := hp ▸ h.params_wf
  depth := depthRespected_of_length_le hp (hq ▸ le_rfl) h.depth
  queue_legal := by rw [hp, hq]; exact h.queue_legal
  sink_legal := by rw [hp, hk]; exact h.sink_legal
  queue_complete := hq ▸ h.queue_complete
  status_legal := hst
  parser_legal := hpa

/-- Room for a step's worst case is room for its Diff (R138). -/
theorem adopt {s : State} (h : s.Inv) (hroom : s.hasRoom = true) (c : ControllerState) :
    (s.adopt c).Inv where
  params_wf := h.params_wf
  depth := by
    have hlen := length_diff_le s.params s.last c
    unfold depthRespected
    rw [adopt_params, adopt_evq]
    cases hdepth : s.params.evqDepth with
    | unbounded => rfl
    | bounded n =>
      rw [hasRoom_bounded hdepth, decide_eq_true_eq] at hroom
      simp only [List.length_append, decide_eq_true_eq]
      omega
  queue_legal := by
    rw [adopt_params, adopt_evq, List.all_append, h.queue_legal, Bool.true_and, List.all_eq_true]
    exact fun _ => eventLegal_of_mem_diff
  sink_legal := h.sink_legal
  queue_complete := endsWithFrameComplete_append h.queue_complete (endsWithFrameComplete_diff ..)
  status_legal := h.status_legal
  parser_legal := h.parser_legal

theorem sinkTake {s : State} (h : s.Inv) : s.sinkTake.Inv where
  params_wf := by simpa using h.params_wf
  depth := depthRespected_of_length_le s.sinkTake_params (by simp) h.depth
  queue_legal := by
    rw [sinkTake_params, sinkTake_evq, List.all_eq_true]
    exact fun e he => List.all_eq_true.1 h.queue_legal e (List.mem_of_mem_tail he)
  sink_legal := by
    rw [sinkTake_params, sinkTake_toSink, List.all_append, h.sink_legal, Bool.true_and,
      List.all_eq_true]
    exact fun e he => List.all_eq_true.1 h.queue_legal e (List.mem_of_head? (Option.mem_toList.1 he))
  queue_complete := by simpa using endsWithFrameComplete_tail h.queue_complete
  status_legal := by simpa using h.status_legal
  parser_legal := by simpa using h.parser_legal

theorem assertReset {s : State} (h : s.Inv) : s.assertReset.Inv where
  params_wf := h.params_wf
  depth := depthRespected_of_length_le s.assertReset_params (Nat.zero_le _) h.depth
  queue_legal := rfl
  sink_legal := h.sink_legal
  queue_complete := rfl
  status_legal := rfl
  parser_legal := rfl

/-- A command may execute from any PARSER, as it leaves it Idle; only a held one must find it legal. -/
theorem of_exec {s t : State} {i : Instr} {rest : List Byte} {q : Parser} (h : s.Inv)
    (hq : isHeldKind i.opcode = true → parserLegal q = true)
    (he : exec i { s with cmd := rest, parser := q } = .next t) : t.Inv := by
  cases exec_effect he with
  | held _ hop =>
    have hk : isHeldKind i.opcode = true := by rcases hop with e | e <;> rw [e] <;> rfl
    exact h.of_same_events rfl rfl rfl h.status_legal (hq hk)
  | responds => exact h.of_same_events rfl rfl rfl h.status_legal rfl
  | raises => exact h.of_same_events rfl rfl rfl (statusRecord_legal _ _ h.status_legal) rfl
  | inits => exact h.of_same_events rfl rfl rfl h.status_legal rfl
  | adopts c hroom => exact (h.adopt hroom c).of_same_events rfl rfl rfl h.status_legal rfl

theorem of_blockMove {s t : State} (h : s.Inv) (hb : blockMove s = .next t) : t.Inv := by
  rcases blockMove_cases hb with ⟨i, -, he⟩ | ⟨-, -, rfl⟩ |
    ⟨b, rest, hw, -, ⟨i, after, hd, he⟩ | ⟨-, rfl⟩ | ⟨hd, rfl⟩⟩
  · exact h.of_exec (rest := s.cmd) (fun _ => h.parser_legal) he
  · exact h
  · exact h.of_exec (parserLegal_push_of_held hw hd) he
  · exact h.of_same_events rfl rfl rfl (statusRecord_legal _ _ h.status_legal) rfl
  · exact h.of_same_events rfl rfl rfl h.status_legal (parserLegal_push_of_incomplete hd)

theorem of_applyMove {m : Move} {s t : State} (h : s.Inv) (hm : applyMove m s = .next t) : t.Inv := by
  cases m with
  | block => exact h.of_blockMove hm
  | hostSend b => cases hm; exact h.of_same_events rfl rfl rfl h.status_legal h.parser_legal
  | hostRecv =>
    cases hm
    exact h.of_same_events s.hostRecv_params s.hostRecv_evq s.hostRecv_toSink
      (by simpa using h.status_legal) (by simpa using h.parser_legal)
  | sinkTake => cases hm; exact h.sinkTake
  | reset => cases hm; exact h.assertReset

theorem withSched {s : State} (h : s.Inv) (ms : List Move) : { s with sched := ms }.Inv :=
  h.of_same_events rfl rfl rfl h.status_legal h.parser_legal

end State.Inv

/-- Settles O50: each agent's move keeps the invariant, and the schedule is no part of it. -/
theorem invStep : Obligations.InvStep := by
  intro s t h hstep
  rcases (step_cases hstep).2 with ⟨ms, -, hb⟩ | ⟨m, ms, -, -, hm⟩
  · exact (h.withSched ms).of_blockMove hb
  · exact (h.withSched ms).of_applyMove hm

end Sys2Proof.Machine
end

section
/-!
SUPPORT. The state family (spec/10_state.md R23 to R30): what the bytes of a command do to PARSER, who writes
LAST and STATUS, what reaches the event port, and the values after reset.
-/

namespace Sys2Proof.Machine

/-! ### Bytes of a command -/

theorem receiveByte_ok {s : State} {b : Byte} {i : Instr} {after : List Byte}
    (hd : decode (s.parser.received ++ [b]) = .ok i after) :
    receiveByte b s = exec i (s.pushByte b) := by
  simp [receiveByte, hd]

theorem receiveByte_incomplete {s : State} {b : Byte}
    (hd : decode (s.parser.received ++ [b]) = .incomplete) :
    receiveByte b s = .next (s.pushByte b) := by
  simp [receiveByte, hd]

/-- On the block's turn, with no held command and a byte there, the step receives that byte. -/
theorem step_receive {s : State} {ms : List Move} {b : Byte} {rest : List Byte}
    (hwf : s.params.wf = true) (ht : s.blockTurn ms) (hw : s.parser.waiting = none)
    (hc : s.cmd = b :: rest) : step s = receiveByte b { s with cmd := rest, sched := ms } :=
  (step_blockTurn hwf ht).trans (blockMove_receive (s := { s with sched := ms }) hw hc)

/-- Settles O42: the step receives the byte, and a byte that completes a command executes it. -/
theorem stepRunsDecoded : Obligations.StepRunsDecoded :=
  fun _ _ _ _ _ _ hwf ht hw hc hd => (step_receive hwf ht hw hc).trans (receiveByte_ok hd)

/-- An opcode byte starts Collecting when the command has a payload (R28). -/
theorem push_idle_toByte (op : Opcode) :
    Parser.idle.push op.toByte = if op.payloadLength = 0 then .idle else .collecting op [] := by
  simp only [Parser.push, Opcode.ofByte_toByte]

/-- PARSER holds the bytes of a command that is not complete, the last one included (R28). -/
theorem received_push_of_incomplete {q : Parser} {b : Byte}
    (hd : decode (q.received ++ [b]) = .incomplete) : (q.push b).received = q.received ++ [b] := by
  cases q with
  | collecting op bytes => rfl
  | idle =>
    cases ho : Opcode.ofByte b with
    | none => simp [Parser.received, decode, ho] at hd
    | some op =>
      obtain rfl := Opcode.ofByte_eq_some ho
      have hpay : op.payloadLength ≠ 0 := (decode_incomplete_iff.1 hd).ne'
      rw [push_idle_toByte, if_neg hpay]; rfl

/-- Settles O43: the step receives the byte, and PARSER is all that an incomplete command changes. -/
theorem partialCommandOnlyParser : Obligations.PartialCommandOnlyParser :=
  fun s _ b _ hwf ht hw hc hd =>
    ⟨s.parser.push b, (step_receive hwf ht hw hc).trans (receiveByte_incomplete hd),
      received_push_of_incomplete hd⟩

/-! ### All bytes of a command -/

theorem decodeFrameOperand_bytes (mk : Frame → Instr) (f : Frame) (rest : List Byte) :
    decodeFrameOperand mk (f.bytes ++ rest) = .ok (mk f) rest := by
  rw [decodeFrameOperand, takeFrame_bytes]

theorem decodeStateOperand_stateBytes (mk : StateWord → Instr) (w : StateWord) (rest : List Byte) :
    decodeStateOperand mk (stateBytes w ++ rest) = .ok (mk w) rest := by
  rw [decodeStateOperand, takeState_stateBytes]

theorem decode_encode_append (i : Instr) (rest : List Byte) :
    decode (encode i ++ rest) = .ok i rest := by
  rw [encode, List.cons_append, decode, Opcode.ofByte_toByte]
  cases i with
  | decode f => exact decodeFrameOperand_bytes .decode f rest
  | encode w => exact decodeStateOperand_stateBytes .encode w rest
  | init w => exact decodeStateOperand_stateBytes .init w rest
  | step w => exact decodeStateOperand_stateBytes .step w rest
  | decodeStep f => exact decodeFrameOperand_bytes .decodeStep f rest
  | rdstatus => rfl

theorem decode_encode (i : Instr) : decode (encode i) = .ok i [] := by
  simpa using decode_encode_append i []

/-- The rest of a payload, received after its first bytes, amounts to the command's execution. -/
theorem runSteps_payload {i : Instr} {bytes bs rest : List Byte} {s : State}
    (hi : i.payload = bytes ++ bs) (hne : bs ≠ []) (hwf : s.params.wf = true) (hs : s.sched = [])
    (hq : s.parser = .collecting i.opcode bytes) (hc : s.cmd = bs ++ rest) :
    runSteps bs.length s
      = exec i { s with cmd := rest, parser := .collecting i.opcode i.payload } := by
  induction bs generalizing s bytes with
  | nil => exact absurd rfl hne
  | cons b bs ih =>
    have hlen : bytes.length + (bs.length + 1) = i.opcode.payloadLength := by
      rw [← i.payload_length, hi, List.length_append, List.length_cons]
    have hw : s.parser.waiting = none := by rw [hq, waiting_collecting_eq_none]; omega
    have hrec : s.parser.received ++ [b] = i.opcode.toByte :: (bytes ++ [b]) := by rw [hq]; rfl
    have hpush : s.parser.push b = .collecting i.opcode (bytes ++ [b]) := by rw [hq]; rfl
    cases bs with
    | nil =>
      have hd : decode (s.parser.received ++ [b]) = .ok i [] := by
        rw [hrec, ← hi]; exact decode_encode i
      have hstep := stepRunsDecoded s [] b rest [] i hwf (.inr ⟨hs, rfl⟩) hw hc hd
      rw [List.length_singleton, runSteps_one, hstep, hpush, ← hi, ← hs]
    | cons b' bs =>
      have hd : decode (s.parser.received ++ [b]) = .incomplete := by
        rw [hrec, decode_incomplete_iff]; simp at hlen ⊢; omega
      have hstep := (step_receive hwf (.inr ⟨hs, rfl⟩) hw hc).trans (receiveByte_incomplete hd)
      rw [List.length_cons, runSteps_succ hstep, ← hs]
      exact ih (by simp [hi]) (by simp) hwf hs hpush rfl

/-- Settles O44: the opcode byte executes the command when it has no payload, and else starts a payload
whose bytes amount to the execution. -/
theorem streamRunsCommand : Obligations.StreamRunsCommand := by
  intro i rest s hwf hp hs hc
  have hw : s.parser.waiting = none := by rw [hp]; rfl
  have hrec : s.parser.received ++ [i.opcode.toByte] = [i.opcode.toByte] := by rw [hp]; rfl
  have hlen := i.payload_length
  by_cases hpay : i.payload = []
  · have henc : encode i = [i.opcode.toByte] := by rw [encode, hpay]
    have hd : decode (s.parser.received ++ [i.opcode.toByte]) = .ok i [] := by
      rw [hrec, ← henc]; exact decode_encode i
    have hpush : s.parser.push i.opcode.toByte = .idle := by
      rw [hp, push_idle_toByte, if_pos (by rw [← hlen, hpay]; rfl)]
    rw [henc] at hc
    have hstep := stepRunsDecoded s [] _ rest [] i hwf (.inr ⟨hs, rfl⟩) hw hc hd
    refine ⟨.idle, fun _ => rfl, fun h => absurd hpay h, ?_⟩
    rw [henc, List.length_singleton, runSteps_one, hstep, hpush, ← hs]
  · have hpos : 0 < i.opcode.payloadLength := hlen ▸ List.length_pos_of_ne_nil hpay
    have hd : decode (s.parser.received ++ [i.opcode.toByte]) = .incomplete := by
      rw [hrec]; exact decode_incomplete_iff.2 hpos
    have hpush : s.parser.push i.opcode.toByte = .collecting i.opcode [] := by
      rw [hp, push_idle_toByte, if_neg hpos.ne']
    have hstep := (step_receive hwf (.inr ⟨hs, rfl⟩) hw hc).trans (receiveByte_incomplete hd)
    refine ⟨.collecting i.opcode i.payload, fun h => absurd h hpay, fun _ => rfl, ?_⟩
    rw [encode, List.length_cons, runSteps_succ hstep, ← hs]
    exact runSteps_payload rfl hpay hwf hs hpush rfl

/-! ### What a step but reset can do -/

/-- All the block's move can do: it executes a command, or takes a reserved opcode, or changes no more than
the command channel and PARSER. -/
theorem blockMove_effect {s t : State} (h : blockMove s = .next t) :
    (∃ i rest q, s.completes i ∧ ExecEffect i { s with cmd := rest, parser := q } t) ∨
    (∃ rest, t = State.raiseError { s with cmd := rest } .illegalOp) ∨
    (∃ rest q, t = { s with cmd := rest, parser := q }) := by
  rcases blockMove_cases h with ⟨i, hw, he⟩ | ⟨-, -, rfl⟩ |
    ⟨b, rest, hw, hc, ⟨i, after, hd, he⟩ | ⟨-, rfl⟩ | ⟨-, rfl⟩⟩
  · exact .inl ⟨i, s.cmd, s.parser, .inl hw, exec_effect he⟩
  · exact .inr (.inr ⟨t.cmd, t.parser, rfl⟩)
  · exact .inl ⟨i, rest, _, .inr ⟨hw, b, rest, after, hc, hd⟩, exec_effect he⟩
  · exact .inr (.inl ⟨rest, rfl⟩)
  · exact .inr (.inr ⟨rest, _, rfl⟩)

/-- All a step but reset can do: the block's move on its turn, or a move of host or sink. -/
theorem step_cases_of_not_reset {s t : State} (h : step s = .next t)
    (hr : s.sched.head? ≠ some .reset) :
    ∃ ms, (s.blockTurn ms ∧ blockMove { s with sched := ms } = .next t) ∨
      (∃ b, t = State.hostSend { s with sched := ms } b) ∨
      t = State.hostRecv { s with sched := ms } ∨ t = State.sinkTake { s with sched := ms } := by
  rcases (step_cases h).2 with ⟨ms, hb⟩ | ⟨m, ms, hs, hm, ha⟩
  · exact ⟨ms, .inl hb⟩
  · refine ⟨ms, .inr ?_⟩
    cases m with
    | block => exact absurd rfl hm
    | reset => exact absurd (by rw [hs]; rfl) hr
    | hostSend b => cases ha; exact .inl ⟨b, rfl⟩
    | hostRecv => cases ha; exact .inr (.inl rfl)
    | sinkTake => cases ha; exact .inr (.inr rfl)

/-! ### LAST -/

/-- An execution that changes LAST writes it whole, from the command's operand (R25). -/
theorem ExecEffect.last_written {i : Instr} {s t : State} (h : ExecEffect i s t)
    (hne : t.last ≠ s.last) :
    (∃ w, (i = .init w ∨ i = .step w) ∧ unpack w = some t.last) ∨
    (∃ f, i = .decodeStep f ∧ wireDecode s.params f = t.last) := by
  cases h with
  | held => exact absurd rfl hne
  | responds => exact absurd rfl hne
  | raises => exact absurd rfl hne
  | inits w c hi hu => exact .inl ⟨w, .inl hi, hu⟩
  | adopts c _ hop =>
    rcases hop with ⟨w, hi, hu⟩ | ⟨f, hi, hf⟩
    · exact .inl ⟨w, .inr hi, hu⟩
    · exact .inr ⟨f, hi, hf⟩

/-- Settles O51: of the moves other than reset the block's alone reaches LAST, by an execution. -/
theorem lastWriters : Obligations.LastWriters := by
  intro s t h hne
  by_cases hr : s.sched.head? = some .reset
  · exact .inl hr
  · obtain ⟨ms, ⟨ht, hb⟩ | ⟨b, rfl⟩ | rfl | rfl⟩ := step_cases_of_not_reset h hr
    · rcases blockMove_effect hb with ⟨i, rest, q, hcomp, he⟩ | ⟨rest, rfl⟩ | ⟨rest, q, rfl⟩
      · exact .inr ⟨ms, i, ht, hcomp, he.last_written hne⟩
      · exact absurd rfl hne
      · exact absurd rfl hne
    · exact absurd rfl hne
    · exact absurd (State.hostRecv_last _) hne
    · exact absurd (State.sinkTake_last _) hne

/-- `t'` is `t` but for LAST and EVQ. -/
def sameOffEvents (t t' : State) : Prop :=
  t' = { t with last := t'.last, evq := t'.evq }

/-- What relates the outcomes of a valid operand, and of an invalid one, relates those of any operand. -/
theorem withStateOperand_rel {R : State → State → Prop} {s s' : State} {k k' : ControllerState → State}
    (w : StateWord) (hk : ∀ c, R (k c) (k' c))
    (he : R (s.raiseError .badState) (s'.raiseError .badState)) :
    R (withStateOperand w s k) (withStateOperand w s' k') := by
  cases hu : unpack w with
  | some c => rw [withStateOperand_some hu, withStateOperand_some hu]; exact hk c
  | none => rw [withStateOperand_none hu, withStateOperand_none hu]; exact he

/-- With room in both states or in neither, what relates the states and the effects relates the outcomes. -/
theorem whenRoom_rel {R : State → State → Prop} {s s' e e' : State} (hroom : s'.hasRoom = s.hasRoom)
    (hs : R s s') (he : R e e') : R (whenRoom s e) (whenRoom s' e') := by
  cases hr : s.hasRoom with
  | true => rw [whenRoom_room hr, whenRoom_room (hroom.trans hr)]; exact he
  | false => rw [whenRoom_held hr, whenRoom_held (hroom.trans hr)]; exact hs

/-- A command executed with another LAST does the same but to LAST and EVQ (R24). -/
theorem exec_sameOffEvents {i : Instr} {s t t' : State} {c : ControllerState}
    (h : exec i s = .next t) (h' : exec i { s with last := c } = .next t') : sameOffEvents t t' := by
  cases i with
  | decode f => cases h; cases h'; rfl
  | encode w => cases h; cases h'; exact withStateOperand_rel w (fun _ => rfl) rfl
  | init w => cases h; cases h'; exact withStateOperand_rel w (fun _ => rfl) rfl
  | step w =>
    cases h; cases h'
    exact whenRoom_rel rfl rfl (withStateOperand_rel w (fun _ => rfl) rfl)
  | decodeStep f => cases h; cases h'; exact whenRoom_rel rfl rfl rfl
  | rdstatus => cases h; cases h'; rfl

/-- Only STEP and DECODE_STEP add events (R135, R136). -/
theorem ExecEffect.evq_eq {i : Instr} {s t : State} (h : ExecEffect i s t)
    (hstep : i.opcode ≠ .step) (hdec : i.opcode ≠ .decodeStep) : t.evq = s.evq := by
  cases h with
  | held => rfl
  | responds => rfl
  | raises => rfl
  | inits => rfl
  | adopts c _ hop =>
    rcases hop with ⟨w, rfl, -⟩ | ⟨f, rfl, -⟩
    · exact absurd rfl hstep
    · exact absurd rfl hdec

/-- Settles O52: the next states agree off LAST and EVQ, and a command that adds no events leaves EVQ. -/
theorem lastSeenThroughEventsOnly : Obligations.LastSeenThroughEventsOnly := by
  intro i s t t' c h h'
  have hsame : t' = { t with last := t'.last, evq := t'.evq } := exec_sameOffEvents h h'
  rw [hsame]
  refine ⟨rfl, rfl, rfl, rfl, rfl, rfl, rfl, rfl, fun hstep hdec => ?_⟩
  calc t'.evq = s.evq := (exec_effect h').evq_eq hstep hdec
    _ = t.evq := ((exec_effect h).evq_eq hstep hdec).symm

/-! ### STATUS -/

/-- An execution leaves STATUS or records an error in it. -/
theorem ExecEffect.status_eq {i : Instr} {s t : State} (h : ExecEffect i s t) :
    t.status = s.status ∨ ∃ code, t.status = statusRecord s.status code := by
  cases h with
  | raises => exact .inr ⟨_, rfl⟩
  | held => exact .inl rfl
  | responds => exact .inl rfl
  | inits => exact .inl rfl
  | adopts => exact .inl rfl

/-- Every step but reset leaves STATUS or records an error in it (R202). -/
theorem step_status {s t : State} (h : step s = .next t) (hr : s.sched.head? ≠ some .reset) :
    t.status = s.status ∨ ∃ code, t.status = statusRecord s.status code := by
  obtain ⟨ms, ⟨-, hb⟩ | ⟨b, rfl⟩ | rfl | rfl⟩ := step_cases_of_not_reset h hr
  · rcases blockMove_effect hb with ⟨i, rest, q, -, he⟩ | ⟨rest, rfl⟩ | ⟨rest, q, rfl⟩
    · exact he.status_eq
    · exact .inr ⟨_, rfl⟩
    · exact .inl rfl
  · exact .inl rfl
  · exact .inl (State.hostRecv_status _)
  · exact .inl (State.sinkTake_status _)

/-- Settles O53: an error recorded after an error leaves ERR and FIRST_CODE. -/
theorem statusSticky : Obligations.StatusSticky := by
  intro s t h herr hr
  rcases step_status h hr with hst | ⟨code, hst⟩
  · rw [hst]; exact ⟨herr, rfl⟩
  · rw [hst]; exact statusRecord_sticky _ _ herr

/-! ### The event port -/

/-- The events of one step: none, or change events and then the one FrameComplete (R133). -/
def oneFrame (evs : List Event) : Prop :=
  evs = [] ∨ ∃ ev, evs = ev ++ [.frameComplete] ∧ ev ≠ [] ∧ Event.frameComplete ∉ ev

theorem frameComplete_not_mem_changeEvents (p : Params) (last new : ControllerState) :
    Event.frameComplete ∉ changeEvents p last new := by
  simp [mem_changeEvents]

theorem oneFrame_diff (p : Params) (last new : ControllerState) : oneFrame (diff p last new) := by
  unfold diff withFrameComplete
  split
  · exact .inl rfl
  · exact .inr ⟨_, rfl, ‹_›, frameComplete_not_mem_changeEvents p last new⟩

/-- The events `t` has delivered and queued are those of `s`, and then one frame or none. -/
def growsByFrame (s t : State) : Prop :=
  ∃ new, t.toSink ++ t.evq = s.toSink ++ s.evq ++ new ∧ oneFrame new

theorem growsByFrame_of_eq {s t : State} (h : t.toSink ++ t.evq = s.toSink ++ s.evq) :
    growsByFrame s t :=
  ⟨[], by rw [h, List.append_nil], .inl rfl⟩

theorem ExecEffect.events_grow {i : Instr} {s t : State} (h : ExecEffect i s t) :
    growsByFrame s t := by
  cases h with
  | held => exact growsByFrame_of_eq rfl
  | responds => exact growsByFrame_of_eq rfl
  | raises => exact growsByFrame_of_eq rfl
  | inits => exact growsByFrame_of_eq rfl
  | adopts c => exact ⟨_, (List.append_assoc ..).symm, oneFrame_diff s.params s.last c⟩

/-- A TAKE moves the head of EVQ to what was delivered, and so keeps the two in a row (R139). -/
theorem sinkTake_events (s : State) : s.sinkTake.toSink ++ s.sinkTake.evq = s.toSink ++ s.evq := by
  rw [State.sinkTake_toSink, State.sinkTake_evq]
  cases s.evq <;> simp

/-- Settles O54: a STEP's Diff is the one thing that is added, and a TAKE only moves the queue's head. -/
theorem eventsFifo : Obligations.EventsFifo := by
  intro s t h hr
  obtain ⟨ms, ⟨-, hb⟩ | ⟨b, rfl⟩ | rfl | rfl⟩ := step_cases_of_not_reset h hr
  · rcases blockMove_effect hb with ⟨i, rest, q, -, he⟩ | ⟨rest, rfl⟩ | ⟨rest, q, rfl⟩
    · exact he.events_grow
    · exact growsByFrame_of_eq rfl
    · exact growsByFrame_of_eq rfl
  · exact growsByFrame_of_eq rfl
  · exact growsByFrame_of_eq (by simp)
  · exact growsByFrame_of_eq (sinkTake_events _)

/-! ### Reset -/

/-- Settles O48: each item of the reset state is the value R30 gives it. -/
theorem resetValues : Obligations.ResetValues :=
  ⟨fun _ => ⟨rfl, rfl, rfl, rfl, rfl, rfl⟩, rfl⟩

theorem depthRespected_of_evq_nil {s : State} (h : s.evq = []) : depthRespected s = true := by
  unfold depthRespected
  cases s.params.evqDepth with
  | unbounded => rfl
  | bounded n => simp [h]

theorem State.Inv.resetWith {p : Params} (h : p.wf = true) : (State.resetWith p).Inv where
  params_wf := h
  depth := depthRespected_of_evq_nil rfl
  queue_legal := rfl
  sink_legal := rfl
  queue_complete := rfl
  status_legal := rfl
  parser_legal := rfl

/-- Settles O49: the reset state meets the invariant, and profile W meets R8. -/
theorem invAtReset : Obligations.InvAtReset :=
  ⟨fun _ => State.Inv.resetWith, State.Inv.resetWith (by decide)⟩

end Sys2Proof.Machine
end

section
/-!
SUPPORT. The memory family (spec/20_memory.md R50, R51, R53; spec/30_encoding.md R71, R72): the two channels
under each move, the responses a step sends, and whose move a step is.
-/

namespace Sys2Proof.Machine

/-! ### Responses -/

/-- The response bytes read and pending in `t` are those of `s`, or those and then one response: an OK byte
and at most eight data bytes, or an error byte alone; PARSER is Idle after it (R71, R72). -/
def growsByResponse (s t : State) : Prop :=
  t.toHost ++ t.resp = s.toHost ++ s.resp ∨
  ∃ (b : Byte) (data : List Byte), t.toHost ++ t.resp = s.toHost ++ s.resp ++ b :: data ∧
    (b = 0x00 ∨ ((b = 0x01 ∨ b = 0x02) ∧ data = [])) ∧ data.length ≤ 8 ∧ t.parser = .idle

theorem growsByResponse_respondOk (s : State) {data : List Byte} (h : data.length ≤ 8) :
    growsByResponse s (s.respondOk data) :=
  .inr ⟨okByte, data, (List.append_assoc ..).symm, .inl rfl, h, rfl⟩

theorem ErrorCode.toByte_eq (code : ErrorCode) : code.toByte = 0x01 ∨ code.toByte = 0x02 := by
  cases code with
  | illegalOp => exact .inl rfl
  | badState => exact .inr rfl

theorem growsByResponse_raiseError (s : State) (code : ErrorCode) :
    growsByResponse s (s.raiseError code) :=
  .inr ⟨code.toByte, [], (List.append_assoc ..).symm, .inr ⟨code.toByte_eq, rfl⟩, Nat.zero_le _, rfl⟩

/-- A command answers once, or not at all while it is held (R71, R138). -/
theorem ExecEffect.responses_grow {i : Instr} {s t : State} (h : ExecEffect i s t) :
    growsByResponse s t := by
  cases h with
  | held => exact .inl rfl
  | responds data hlen => exact growsByResponse_respondOk s hlen
  | raises => exact growsByResponse_raiseError s .badState
  | inits w c => exact growsByResponse_respondOk (s.setLast c) (Nat.zero_le _)
  | adopts c => exact growsByResponse_respondOk (s.adopt c) (Nat.zero_le _)

/-- A read moves the oldest pending byte to what the host has read, and so keeps the two in a row (R51). -/
theorem hostRecv_responses (s : State) : s.hostRecv.toHost ++ s.hostRecv.resp = s.toHost ++ s.resp := by
  rw [State.hostRecv_toHost, State.hostRecv_resp]
  cases s.resp <;> simp

/-- Settles O55: the block's move answers at most one command, and a read only moves a pending byte. -/
theorem responsesInOrder : Obligations.ResponsesInOrder := by
  intro s t h hr
  obtain ⟨ms, ⟨-, hb⟩ | ⟨b, rfl⟩ | rfl | rfl⟩ := step_cases_of_not_reset h hr
  · rcases blockMove_effect hb with ⟨i, rest, q, -, he⟩ | ⟨rest, rfl⟩ | ⟨rest, q, rfl⟩
    · exact he.responses_grow
    · exact growsByResponse_raiseError { s with cmd := rest, sched := ms } .illegalOp
    · exact .inl rfl
  · exact .inl rfl
  · exact .inl (hostRecv_responses _)
  · exact .inl (by simp)

/-! ### Whose move a step is -/

theorem runSchedule_nil {s : State} (hs : s.sched = []) : runSchedule s = applyMove .block s := by
  simp [runSchedule, applyMove, hs]

theorem runSchedule_cons {s : State} {m : Move} {ms : List Move} (hs : s.sched = m :: ms) :
    runSchedule s = applyMove m { s with sched := ms } := by
  simp [runSchedule, hs]

/-- Settles O41: with parameters that meet R8 a step carries out the schedule's next move. -/
theorem stepTakesNextMove : Obligations.StepTakesNextMove :=
  fun _ hwf => ⟨fun _ _ hs => (step_of_wf hwf).trans (runSchedule_cons hs),
    fun hs => (step_of_wf hwf).trans (runSchedule_nil hs)⟩

/-! ### The host's moves -/

theorem hostRecv_of_pending {s : State} {b : Byte} {rest : List Byte} (h : s.resp = b :: rest) :
    s.hostRecv = { s with resp := rest, toHost := s.toHost ++ [b] } := by
  simp [State.hostRecv, h]

theorem hostRecv_of_none_pending {s : State} (h : s.resp = []) : s.hostRecv = s := by
  simp [State.hostRecv, h]

/-- Settles O58: the two cases of a read are a byte pending and none. -/
theorem hostMovesChannels : Obligations.HostMovesChannels :=
  fun _ => ⟨fun _ => rfl, fun _ _ h => congrArg _ (hostRecv_of_pending h),
    fun h => congrArg _ (hostRecv_of_none_pending h)⟩

end Sys2Proof.Machine
end

section
/-!
SUPPORT. The encoding family (spec/30_encoding.md R60 to R67, R73 to R75): decoder and encoder undo each other,
the STATE word's fields, Pack and Unpack, what the assembler makes of a tuple, and the event words.
-/

namespace Sys2Proof

/-! ### Decoder and encoder -/

/-- A payload that decodes after an opcode is the decoded command's payload, and the command has that
opcode (R61). -/
theorem decodePayload_ok {op : Opcode} {l rest : List Byte} {i : Instr}
    (h : decodePayload op l = .ok i rest) : i.opcode = op ∧ l = i.payload ++ rest := by
  cases op with
  | decode => obtain ⟨f, rfl, rfl⟩ := decodeFrameOperand_ok h; exact ⟨rfl, rfl⟩
  | encode => obtain ⟨w, rfl, rfl⟩ := decodeStateOperand_ok h; exact ⟨rfl, rfl⟩
  | init => obtain ⟨w, rfl, rfl⟩ := decodeStateOperand_ok h; exact ⟨rfl, rfl⟩
  | step => obtain ⟨w, rfl, rfl⟩ := decodeStateOperand_ok h; exact ⟨rfl, rfl⟩
  | decodeStep => obtain ⟨f, rfl, rfl⟩ := decodeFrameOperand_ok h; exact ⟨rfl, rfl⟩
  | rdstatus => cases h; exact ⟨rfl, rfl⟩

theorem decode_cons_of_reserved {b : Byte} (h : Opcode.ofByte b = none) (rest : List Byte) :
    decode (b :: rest) = .reserved b rest := by
  simp only [decode, h]

theorem decode_toByte_cons (op : Opcode) (rest : List Byte) :
    decode (op.toByte :: rest) = decodePayload op rest := by
  simp only [decode, Opcode.ofByte_toByte]

theorem eq_encode_append_of_decode {bytes rest : List Byte} {i : Instr}
    (h : decode bytes = .ok i rest) : bytes = encode i ++ rest := by
  cases bytes with
  | nil => cases h
  | cons b l =>
    cases ho : Opcode.ofByte b with
    | none => rw [decode_cons_of_reserved ho] at h; cases h
    | some op =>
      obtain rfl := Opcode.ofByte_eq_some ho
      rw [decode_toByte_cons] at h
      obtain ⟨rfl, rfl⟩ := decodePayload_ok h
      rfl

/-- The decoder calls a byte reserved exactly when it names no opcode, and takes that byte alone (R62). -/
theorem decode_cons_eq_reserved {b c : Byte} {rest r : List Byte} :
    decode (b :: rest) = .reserved c r ↔ Opcode.ofByte b = none ∧ b = c ∧ rest = r := by
  cases ho : Opcode.ofByte b with
  | none => simp [decode_cons_of_reserved ho]
  | some op =>
    obtain rfl := Opcode.ofByte_eq_some ho
    simp [decode_toByte_cons, decodePayload_ne_reserved]

/-- `n` bytes are short of an opcode's payload, told by the opcode byte (R61, R63). -/
theorem lt_payloadLength_iff (op : Opcode) (n : Nat) : n < op.payloadLength ↔
    ((op.toByte = 0x01 ∨ op.toByte = 0x05) ∧ n + 1 < 7) ∨
    ((op.toByte = 0x02 ∨ op.toByte = 0x03 ∨ op.toByte = 0x04) ∧ n + 1 < 9) := by
  cases op with
  | rdstatus => simp [Opcode.toByte, Opcode.payloadLength]
  | _ => simp [Opcode.toByte, Opcode.payloadLength]; omega

theorem decode_cons_eq_incomplete {b : Byte} {rest : List Byte} : decode (b :: rest) = .incomplete ↔
    ((b = 0x01 ∨ b = 0x05) ∧ rest.length + 1 < 7) ∨
    ((b = 0x02 ∨ b = 0x03 ∨ b = 0x04) ∧ rest.length + 1 < 9) := by
  cases ho : Opcode.ofByte b with
  | none =>
    rw [decode_cons_of_reserved ho]
    constructor
    · intro h; cases h
    · rintro (⟨rfl | rfl, -⟩ | ⟨rfl | rfl | rfl, -⟩) <;> cases ho
  | some op =>
    obtain rfl := Opcode.ofByte_eq_some ho
    rw [decode_incomplete_iff, lt_payloadLength_iff]

/-- Settles O1: the opcode byte names the command, whose payload the operand reader takes off whole. -/
theorem decodeOfEncode : Obligations.DecodeOfEncode :=
  Machine.decode_encode_append

/-- Settles O2: the first byte is the opcode byte of the command, and its payload follows. -/
theorem encodeOfDecode : Obligations.EncodeOfDecode :=
  fun _ _ _ => eq_encode_append_of_decode

/-- Settles O3: a byte is reserved when it names no opcode, and else its payload's length decides. -/
theorem opcodeByteDecides : Obligations.OpcodeByteDecides := by
  refine fun b rest => ⟨?_, ?_, decode_cons_eq_incomplete⟩
  · rw [decode_cons_eq_reserved, Opcode.ofByte_eq_none]
    simp only [and_self, and_true]
  · rintro ⟨c, r, h⟩
    obtain ⟨hb, -, -⟩ := decode_cons_eq_reserved.1 h
    exact decode_cons_of_reserved hb rest

theorem decode_of_eq_encode {bytes : List Byte} {i : Instr} (h : bytes = encode i) :
    decode bytes = .ok i [] :=
  h ▸ Machine.decode_encode i

/-- Settles O4: each list of bytes is the encoding of its command. -/
theorem writtenWordsDecode : Obligations.WrittenWordsDecode :=
  ⟨decode_of_eq_encode (by decide), decode_of_eq_encode (by decide), decode_of_eq_encode (by decide),
    decode_of_eq_encode (by decide), decode_of_eq_encode (by decide), decode_of_eq_encode (by decide)⟩

/-! ### The fields of a STATE word -/

/-- The fields of a STATE word, at the bits of R65, are those of a Controller State. -/
structure HasFields (w : StateWord) (c : ControllerState) : Prop where
  buttons : w.extractLsb' 48 16 = c.buttons
  a7 : fieldA7 w = c.a7.toField
  a6 : fieldA6 w = c.a6.toField
  a5 : w.extractLsb' 27 5 = c.a5
  a4 : w.extractLsb' 22 5 = c.a4
  a3 : w.extractLsb' 17 5 = c.a3
  a2 : w.extractLsb' 12 5 = c.a2
  a1 : w.extractLsb' 6 6 = c.a1
  a0 : w.extractLsb' 0 6 = c.a0

/-- Pack puts every field at its bits (R66). -/
theorem hasFields_pack (c : ControllerState) : HasFields (pack c) c := by
  constructor <;>
  · simp (disch := decide) only [pack, fieldA6, fieldA7, BitVec.extractLsb'_append_eq_of_le,
      BitVec.extractLsb'_append_eq_of_add_le]
    exact BitVec.extractLsb'_eq_self

theorem pack_reserved (c : ControllerState) : (pack c).extractLsb' 36 12 = 0#12 := by
  simp (disch := decide) only [pack, BitVec.extractLsb'_append_eq_of_le,
    BitVec.extractLsb'_append_eq_of_add_le]
  exact BitVec.extractLsb'_eq_self

/-- The field of `n` bits at bit `s` of a word, as arithmetic. -/
theorem toNat_div_mod {w : Nat} (x : BitVec w) (s n : Nat) :
    x.toNat / 2 ^ s % 2 ^ n = (x.extractLsb' s n).toNat := by
  rw [BitVec.extractLsb'_toNat, Nat.shiftRight_eq_div_pow]

theorem Ternary.toField_eq_ofInt (x : Ternary) : x.toField = BitVec.ofInt 2 x.toInt := by
  cases x <;> rfl

theorem stateBytes_getElem (w : StateWord) (k : Nat) (hk : k < (stateBytes w).length) :
    (stateBytes w)[k] = stateByte w k := by
  have h8 : k < 8 := hk
  interval_cases k <;> rfl

/-- Settles O6: each field is the one Pack puts there, and each byte is the field its place names. -/
theorem packFields : Obligations.PackFields := by
  intro c
  have hf := hasFields_pack c
  refine ⟨?_, ?_, ?_, ?_, ?_, ?_, ?_, ?_, ?_, ?_, rfl, fun k hk => ?_⟩
  · have hlt : (pack c).toNat / 2 ^ 48 < 2 ^ 16 := by omega
    rw [← Nat.mod_eq_of_lt hlt, toNat_div_mod, hf.buttons]
  · rw [toNat_div_mod, pack_reserved]; rfl
  · rw [toNat_div_mod]; exact congrArg BitVec.toNat (hf.a7.trans c.a7.toField_eq_ofInt)
  · rw [toNat_div_mod]; exact congrArg BitVec.toNat (hf.a6.trans c.a6.toField_eq_ofInt)
  · rw [toNat_div_mod, hf.a5]; rfl
  · rw [toNat_div_mod, hf.a4]; rfl
  · rw [toNat_div_mod, hf.a3]; rfl
  · rw [toNat_div_mod, hf.a2]; rfl
  · rw [toNat_div_mod, hf.a1]; rfl
  · have h0 := toNat_div_mod (pack c) 0 6
    rw [hf.a0, Nat.pow_zero, Nat.div_one] at h0
    exact congrArg Nat.cast h0
  · rw [stateBytes_getElem, toNat_div_mod]; rfl

/-! ### Pack and Unpack -/

/-- Unpack answers the state whose fields are the word's (R66). -/
theorem unpack_eq_some {w : StateWord} {c : ControllerState} :
    unpack w = some c ↔ HasFields w c := by
  have hiff : HasFields w c ↔ w.extractLsb' 0 6 = c.a0 ∧ w.extractLsb' 6 6 = c.a1 ∧
      w.extractLsb' 12 5 = c.a2 ∧ w.extractLsb' 17 5 = c.a3 ∧ w.extractLsb' 22 5 = c.a4 ∧
      w.extractLsb' 27 5 = c.a5 ∧ Ternary.ofField (fieldA6 w) = some c.a6 ∧
      Ternary.ofField (fieldA7 w) = some c.a7 ∧ w.extractLsb' 48 16 = c.buttons := by
    rw [Ternary.ofField_eq_some, Ternary.ofField_eq_some]
    constructor
    · rintro ⟨hb, h7, h6, h5, h4, h3, h2, h1, h0⟩; exact ⟨h0, h1, h2, h3, h4, h5, h6, h7, hb⟩
    · rintro ⟨h0, h1, h2, h3, h4, h5, h6, h7, hb⟩; exact ⟨hb, h7, h6, h5, h4, h3, h2, h1, h0⟩
  rw [hiff, unpack]
  cases c
  cases Ternary.ofField (fieldA6 w) <;> cases Ternary.ofField (fieldA7 w) <;> simp

theorem unpack_pack (c : ControllerState) : unpack (pack c) = some c :=
  unpack_eq_some.2 (hasFields_pack c)

/-- A STATE word with its reserved bits 47:36 cleared (R67). -/
def clearReserved (w : StateWord) : StateWord :=
  w &&& ~~~0x0000FFF000000000#64

/-- Clearing the reserved bits leaves a field that has none of them. -/
theorem extractLsb'_clearReserved {s n : Nat} (w : StateWord)
    (h : (~~~0x0000FFF000000000#64).extractLsb' s n = BitVec.allOnes n) :
    (clearReserved w).extractLsb' s n = w.extractLsb' s n := by
  rw [clearReserved, BitVec.extractLsb'_and, h, BitVec.and_allOnes]

theorem clearReserved_reserved (w : StateWord) : (clearReserved w).extractLsb' 36 12 = 0#12 := by
  have h : (~~~0x0000FFF000000000#64).extractLsb' 36 12 = 0#12 := by decide
  rw [clearReserved, BitVec.extractLsb'_and, h, BitVec.and_zero]

/-- Unpack does not read the reserved bits (R67). -/
theorem unpack_clearReserved (w : StateWord) : unpack (clearReserved w) = unpack w := by
  simp (disch := decide) only [unpack, fieldA6, fieldA7, extractLsb'_clearReserved]

/-- A STATE word is its fields in the order of R65. -/
theorem fields_append (w : StateWord) :
    w.extractLsb' 48 16 ++ w.extractLsb' 36 12 ++ fieldA7 w ++ fieldA6 w ++ w.extractLsb' 27 5
      ++ w.extractLsb' 22 5 ++ w.extractLsb' 17 5 ++ w.extractLsb' 12 5 ++ w.extractLsb' 6 6
      ++ w.extractLsb' 0 6 = w := by
  simp (disch := decide) only [fieldA6, fieldA7,
    BitVec.extractLsb'_append_extractLsb'_eq_extractLsb']
  exact BitVec.extractLsb'_eq_self

/-- Pack after Unpack: the fields are the word's, and those of the word with bits 47:36 cleared (R66). -/
theorem pack_of_unpack {w : StateWord} {c : ControllerState} (h : unpack w = some c) :
    pack c = clearReserved w := by
  rw [← unpack_clearReserved] at h
  obtain ⟨hb, h7, h6, h5, h4, h3, h2, h1, h0⟩ := unpack_eq_some.1 h
  rw [pack, ← hb, ← clearReserved_reserved w, ← h7, ← h6, ← h5, ← h4, ← h3, ← h2, ← h1, ← h0]
  exact fields_append (clearReserved w)

theorem extractLsb'_eq_two_iff (w : StateWord) (s : Nat) :
    w.extractLsb' s 2 = 0b10#2 ↔ w.toNat / 2 ^ s % 4 = 2 := by
  rw [← BitVec.toNat_inj, ← toNat_div_mod]; rfl

theorem unpack_eq_none {w : StateWord} :
    unpack w = none ↔ fieldA6 w = 0b10#2 ∨ fieldA7 w = 0b10#2 := by
  rw [← Option.not_isSome_iff_eq_none, unpack_isSome, Bool.not_eq_true, legalStateWord,
    Bool.and_eq_false_iff, bne_eq_false_iff_eq, bne_eq_false_iff_eq]

/-- Settles O7: Unpack finds the fields Pack put, Pack puts them back, and only `10` has no value. -/
theorem unpackPack : Obligations.UnpackPack := by
  refine ⟨unpack_pack, fun _ _ => pack_of_unpack, fun w => ?_⟩
  rw [unpack_eq_none, fieldA6, fieldA7, extractLsb'_eq_two_iff, extractLsb'_eq_two_iff]

theorem pack_and_reserved (c : ControllerState) : pack c &&& 0x0000FFF000000000#64 = 0#64 := by
  have h : ~~~0x0000FFF000000000#64 &&& 0x0000FFF000000000#64 = 0#64 := by decide
  rw [pack_of_unpack (unpack_pack c), clearReserved, BitVec.and_assoc, h, BitVec.and_zero]

/-! ### The assembler -/

/-- The ranges of R20 and R75, the analog ones as what a field of their width holds. -/
theorem AsmTuple.inRange_iff {t : AsmTuple} : t.inRange = true ↔
    (0 ≤ t.x0 ∧ t.x0 < 2 ^ 6) ∧ (0 ≤ t.x1 ∧ t.x1 < 2 ^ 6) ∧ (0 ≤ t.x2 ∧ t.x2 < 2 ^ 5) ∧
    (0 ≤ t.x3 ∧ t.x3 < 2 ^ 5) ∧ (0 ≤ t.x4 ∧ t.x4 < 2 ^ 5) ∧ (0 ≤ t.x5 ∧ t.x5 < 2 ^ 5) ∧
    (-1 ≤ t.x6 ∧ t.x6 ≤ 1) ∧ (-1 ≤ t.x7 ∧ t.x7 ≤ 1) := by
  simp only [AsmTuple.inRange, Bool.and_eq_true, decide_eq_true_eq, and_assoc]
  omega

theorem Ternary.ofInt_of_range {v : Int} (h : -1 ≤ v ∧ v ≤ 1) :
    ∃ x, Ternary.ofInt v = some x ∧ x.toInt = v := by
  obtain ⟨hlo, hhi⟩ := h
  interval_cases v
  · exact ⟨.neg, rfl, rfl⟩
  · exact ⟨.zero, rfl, rfl⟩
  · exact ⟨.pos, rfl, rfl⟩

theorem toNat_ofInt_of_range {n : Nat} {v : Int} (h : 0 ≤ v ∧ v < 2 ^ n) :
    ((BitVec.ofInt n v).toNat : Int) = v := by
  obtain ⟨hlo, hhi⟩ := h
  rw [BitVec.toNat_ofInt, Nat.cast_pow, Nat.cast_ofNat, Int.emod_eq_of_lt hlo hhi,
    Int.toNat_of_nonneg hlo]

/-- A tuple in range is a state with exactly its values (R75). -/
theorem AsmTuple.toState_of_inRange {t : AsmTuple} (h : t.inRange = true) :
    ∃ c, t.toState = some c ∧ c.buttons = t.buttons ∧
      (Machine.slots.map fun k => c.axis k)
        = [t.x0, t.x1, t.x2, t.x3, t.x4, t.x5, t.x6, t.x7] := by
  obtain ⟨h0, h1, h2, h3, h4, h5, h6, h7⟩ := AsmTuple.inRange_iff.1 h
  obtain ⟨x, hx, hx6⟩ := Ternary.ofInt_of_range h6
  obtain ⟨y, hy, hy7⟩ := Ternary.ofInt_of_range h7
  refine ⟨_, by rw [AsmTuple.toState, if_pos h, hx, hy], rfl, ?_⟩
  simp only [Machine.slots, List.map, ControllerState.axis, toNat_ofInt_of_range h0,
    toNat_ofInt_of_range h1, toNat_ofInt_of_range h2, toNat_ofInt_of_range h3,
    toNat_ofInt_of_range h4, toNat_ofInt_of_range h5, hx6, hy7]

theorem AsmTuple.toState_of_not_inRange {t : AsmTuple} (h : t.inRange = false) :
    t.toState = none := by
  simp [AsmTuple.toState, h]

/-- Settles O5: the range alone decides whether a tuple is a state, whose word is its Pack. -/
theorem assembleTuple : Obligations.AssembleTuple := by
  refine fun t w => ⟨fun h => ?_, fun h => ?_, rfl, rfl, rfl⟩
  · obtain ⟨c, hc, hbuttons, haxes⟩ := AsmTuple.toState_of_inRange h
    have hw : (AsmOperand.tuple t).toWord = some (pack c) := congrArg (Option.map pack) hc
    simp only [assemble, hw]
    exact ⟨pack c, c, rfl, rfl, rfl, rfl, unpack_pack c, hbuttons, haxes⟩
  · have hw : (AsmOperand.tuple t).toWord = none :=
      congrArg (Option.map pack) (AsmTuple.toState_of_not_inRange h)
    simp only [assemble, hw]
    exact ⟨rfl, rfl, rfl⟩

end Sys2Proof

namespace Sys2Proof.Machine

/-! ### The reserved bits of a STATE word -/

theorem unpack_congr {w w' : StateWord} (h : agreeOffReserved w w') : unpack w = unpack w' := by
  rw [← unpack_clearReserved w, ← unpack_clearReserved w']
  exact congrArg unpack h

/-- A STATE operand is seen through Unpack alone (R66). -/
theorem withStateOperand_congr {w w' : StateWord} (h : unpack w = unpack w') (s : State)
    (k : ControllerState → State) : withStateOperand w s k = withStateOperand w' s k := by
  simp only [withStateOperand, h]

/-- Settles O8: the three commands see their operand through Unpack, and DECODE answers a Pack. -/
theorem reservedStateBitsIgnored : Obligations.ReservedStateBitsIgnored := by
  refine ⟨fun w w' s h => ?_, fun f s => ⟨_, _, rfl, rfl, pack_and_reserved _⟩⟩
  have hop := withStateOperand_congr (unpack_congr h) s
  exact ⟨congrArg Host.Outcome.next (hop _), congrArg Host.Outcome.next (hop _),
    congrArg (fun t => Host.Outcome.next (whenRoom s t)) (hop _)⟩

/-! ### Event words -/

/-- `value & 0xFF` (R73) is the value in two's complement of eight bits. -/
theorem ofInt_and_low_byte (v : Int) :
    BitVec.ofInt 16 v &&& 0x00FF#16 = 0#8 ++ BitVec.ofInt 8 v := by
  apply BitVec.eq_of_toNat_eq
  have hmask : (0x00FF#16).toNat = 2 ^ 8 - 1 := rfl
  rw [BitVec.toNat_and, hmask, Nat.and_two_pow_sub_one_eq_mod, toNat_append_add,
    BitVec.toNat_ofInt, BitVec.toNat_ofInt, BitVec.toNat_zero]
  omega

theorem toWord_axisChanged (slot : Fin 8) (v : Int) : (Event.axisChanged slot v).toWord =
    (BitVec.ofNat 16 slot.val <<< 8) ||| (BitVec.ofInt 16 v &&& 0x00FF#16) := by
  have hslot : BitVec.ofNat 16 slot.val <<< 8
      = 0b00#2 ++ 0b00#2 ++ BitVec.ofNat 4 slot.val ++ 0#8 := by
    revert slot; decide
  rw [ofInt_and_low_byte, hslot, BitVec.or_append, BitVec.or_zero, BitVec.zero_or]
  rfl

theorem toWord_buttonChanged : ∀ (i : Fin 16) (b : Bool), (Event.buttonChanged i b).toWord =
    0x4000#16 ||| (BitVec.ofNat 16 i.val <<< 8) ||| BitVec.ofNat 16 b.toNat := by
  decide

/-- Settles O35: one formula per kind of event, and the port shows the head of EVQ if there is one. -/
theorem eventWords : Obligations.EventWords := by
  refine ⟨toWord_axisChanged, toWord_buttonChanged, rfl,
    fun s => ⟨?_, fun ev evs h => ?_, fun h => ?_⟩⟩
  · rw [evValid, decide_eq_true_eq, List.length_pos_iff]
  · simp only [evPort, h, List.head?_cons, Option.map_some]
  · simp only [evPort, h, List.head?_nil, Option.map_none]

/-- The fields of an AxisChanged word (R73). -/
theorem axisWord_fields (slot : Fin 8) (v : Int) :
    (Event.axisChanged slot v).toWord.extractLsb' 14 2 = 0b00#2 ∧
    (Event.axisChanged slot v).toWord.extractLsb' 12 2 = 0#2 ∧
    (Event.axisChanged slot v).toWord.extractLsb' 8 4 = BitVec.ofNat 4 slot.val ∧
    (Event.axisChanged slot v).toWord.extractLsb' 0 8 = BitVec.ofInt 8 v := by
  simp (disch := decide) only [Event.toWord, BitVec.extractLsb'_append_eq_of_le,
    BitVec.extractLsb'_append_eq_of_add_le]
  exact ⟨rfl, rfl, BitVec.extractLsb'_eq_self, BitVec.extractLsb'_eq_self⟩

/-- The fields of a ButtonChanged word (R73). -/
theorem buttonWord_fields : ∀ (bit : Fin 16) (pressed : Bool),
    (Event.buttonChanged bit pressed).toWord.extractLsb' 14 2 = 0b01#2 ∧
    (Event.buttonChanged bit pressed).toWord.extractLsb' 12 2 = 0#2 ∧
    (Event.buttonChanged bit pressed).toWord.extractLsb' 8 4 = BitVec.ofNat 4 bit.val ∧
    (Event.buttonChanged bit pressed).toWord.extractLsb' 1 7 = 0#7 ∧
    (Event.buttonChanged bit pressed).toWord.getLsbD 0 = pressed := by
  decide

/-- A slot number needs three of its field's four bits (R74). -/
theorem slot_bit3 : ∀ slot : Fin 8, (BitVec.ofNat 4 slot.val).getLsbD 3 = false := by
  decide

theorem axisWord_bit11 (slot : Fin 8) (v : Int) : (Event.axisChanged slot v).toWord[11] = false := by
  obtain ⟨-, -, hslot, -⟩ := axisWord_fields slot v
  have h := slot_bit3 slot
  rw [← hslot, BitVec.getLsbD_extractLsb'] at h
  exact h

/-- The event a sink reads off a word (R73): its kind field, its slot or bit, and the low byte as a
signed value or the low bit. -/
def eventOfWord (w : EventWord) : Event :=
  if w.extractLsb' 14 2 = 0b00#2 then
    .axisChanged (Fin.ofNat 8 (w.extractLsb' 8 4).toNat) (w.extractLsb' 0 8).toInt
  else if w.extractLsb' 14 2 = 0b01#2 then
    .buttonChanged (Fin.ofNat 16 (w.extractLsb' 8 4).toNat) (w.getLsbD 0)
  else .frameComplete

theorem slot_ofNat_toNat : ∀ slot : Fin 8, Fin.ofNat 8 (BitVec.ofNat 4 slot.val).toNat = slot := by
  decide

theorem bit_ofNat_toNat : ∀ bit : Fin 16, Fin.ofNat 16 (BitVec.ofNat 4 bit.val).toNat = bit := by
  decide

/-- A slot's values fit a signed byte (R20). -/
theorem slot_range_signed_byte : ∀ slot : Fin 8, -2 ^ 7 ≤ slotMin slot ∧ slotMax slot < 2 ^ 7 := by
  decide

/-- A sink reads a legal event off its word (R73, R74). -/
theorem eventOfWord_toWord {p : Params} {a : Event} (h : eventLegal p a = true) :
    eventOfWord a.toWord = a := by
  cases a with
  | axisChanged slot v =>
    obtain ⟨hkind, -, hslot, hvalue⟩ := axisWord_fields slot v
    obtain ⟨hlo, hhi⟩ := of_decide_eq_true h
    obtain ⟨hmin, hmax⟩ := slot_range_signed_byte slot
    have hv : (BitVec.ofInt 8 v).toInt = v :=
      BitVec.toInt_ofInt_eq_self (by decide) (hmin.trans hlo) (hhi.trans_lt hmax)
    rw [eventOfWord, if_pos hkind, hslot, hvalue, hv, slot_ofNat_toNat]
  | buttonChanged bit pressed =>
    obtain ⟨hkind, -, hbit, -, hpressed⟩ := buttonWord_fields bit pressed
    rw [eventOfWord, if_neg (by rw [hkind]; decide), if_pos hkind, hbit, hpressed, bit_ofNat_toNat]
  | frameComplete => rfl

/-- Settles O36: a legal event is read off its word, and each kind's word has its fields of zeros. -/
theorem eventWordFaithful : Obligations.EventWordFaithful := by
  refine fun p a b ha hb => ⟨fun h => ?_, ?_⟩
  · rw [← eventOfWord_toWord ha, h, eventOfWord_toWord hb]
  · cases a with
    | axisChanged slot v =>
      obtain ⟨hkind, hzero, -⟩ := axisWord_fields slot v
      simp [hkind, hzero, axisWord_bit11]
    | buttonChanged bit pressed =>
      obtain ⟨hkind, hzero, -, hzero', -⟩ := buttonWord_fields bit pressed
      simp [hkind, hzero, hzero']
    | frameComplete => decide

end Sys2Proof.Machine
end

section
/-!
SUPPORT. The codec family (spec/40_codec.md R100 to R123): what Decode reads off a frame, what Encode writes, the
two round trips, and the two commands that answer with them.
-/

namespace Sys2Proof.Machine

/-! ### The analog axes of a decoded frame -/

/-- The masks and shifts of R100 to R105 take exactly the decoded axes out of the frame's bytes. -/
theorem wireDecode_axes_masks (p : Params) (f : Frame) :
    (wireDecode p f).a0.setWidth 8 = f.f0 &&& 0x3F ∧
    (wireDecode p f).a1.setWidth 8 = f.f1 &&& 0x3F ∧
    (wireDecode p f).a2.setWidth 8 = ((f.f2 &&& 0x60) >>> 2) ||| ((f.f3 &&& 0xE0) >>> 5) ∧
    (wireDecode p f).a3.setWidth 8
      = ((f.f0 &&& 0xC0) >>> 3) ||| ((f.f1 &&& 0xC0) >>> 5) ||| ((f.f2 &&& 0x80) >>> 7) ∧
    (wireDecode p f).a4.setWidth 8 = f.f2 &&& 0x1F ∧
    (wireDecode p f).a5.setWidth 8 = f.f3 &&& 0x1F := by
  refine ⟨?_, ?_, ?_, ?_, ?_, ?_⟩ <;>
  · apply BitVec.eq_of_getLsbD_eq
    intro i hi
    simp only [wireDecode, BitVec.getLsbD_append, BitVec.getLsbD_extractLsb',
      BitVec.getLsbD_setWidth]
    interval_cases i <;> simp

/-- The bit slices of R100 to R105, as arithmetic on the frame's bytes. -/
theorem wireDecode_axes_toNat (p : Params) (f : Frame) :
    (wireDecode p f).a0.toNat = f.f0.toNat % 64 ∧
    (wireDecode p f).a1.toNat = f.f1.toNat % 64 ∧
    (wireDecode p f).a2.toNat = f.f2.toNat / 32 % 4 * 8 + f.f3.toNat / 32 ∧
    (wireDecode p f).a3.toNat = f.f0.toNat / 64 * 8 + f.f1.toNat / 64 * 2 + f.f2.toNat / 128 ∧
    (wireDecode p f).a4.toNat = f.f2.toNat % 32 ∧
    (wireDecode p f).a5.toNat = f.f3.toNat % 32 := by
  simp only [wireDecode, toNat_append_add, ← toNat_div_mod]
  omega

/-- An analog axis that zero-extends to a byte has the byte's value. -/
theorem natCast_toNat_of_setWidth {n : Nat} {a : BitVec n} {b : Byte} (hn : n ≤ 8)
    (h : a.setWidth 8 = b) : (a.toNat : Int) = b.toNat := by
  rw [← h, BitVec.toNat_setWidth_of_le hn]

/-- Settles O9: each axis is the masked byte, and the arithmetic of its bit slices. -/
theorem decodeAnalogAxes : Obligations.DecodeAnalogAxes := by
  intro p f
  obtain ⟨m0, m1, m2, m3, m4, m5⟩ := wireDecode_axes_masks p f
  obtain ⟨n0, n1, n2, n3, n4, n5⟩ := wireDecode_axes_toNat p f
  exact ⟨natCast_toNat_of_setWidth (by decide) m0, natCast_toNat_of_setWidth (by decide) m1,
    natCast_toNat_of_setWidth (by decide) m2, natCast_toNat_of_setWidth (by decide) m3,
    natCast_toNat_of_setWidth (by decide) m4, natCast_toNat_of_setWidth (by decide) m5,
    congrArg Nat.cast n0, congrArg Nat.cast n1, congrArg Nat.cast n2, congrArg Nat.cast n3,
    congrArg Nat.cast n4, congrArg Nat.cast n5, axis_range _⟩

/-! ### The digital word, the buttons and the D-pad axes of a decoded frame -/

/-- The wire word by the shift of R70. -/
theorem wireWord_eq_shift_or (f : Frame) :
    f.wireWord = (f.f4.setWidth 16 <<< 8) ||| f.f5.setWidth 16 := by
  rw [Frame.wireWord, BitVec.append_def, BitVec.shiftLeftZeroExtend_eq, BitVec.setWidth'_eq]

theorem bitAt_digitalWord (f : Frame) (i : Fin 16) :
    bitAt (digitalWord f) i = !bitAt f.wireWord i :=
  bitAt_not f.wireWord i

theorem wireDecode_buttons (p : Params) (f : Frame) :
    (wireDecode p f).buttons = digitalWord f &&& ~~~p.dpadMask := rfl

theorem wireDecode_a6 (p : Params) (f : Frame) : (wireDecode p f).a6 =
    Ternary.ofPair (!bitAt f.wireWord p.dpadXPos) (!bitAt f.wireWord p.dpadXNeg) := by
  rw [← bitAt_digitalWord, ← bitAt_digitalWord]
  rfl

theorem wireDecode_a7 (p : Params) (f : Frame) : (wireDecode p f).a7 =
    Ternary.ofPair (!bitAt f.wireWord p.dpadYPos) (!bitAt f.wireWord p.dpadYNeg) := by
  rw [← bitAt_digitalWord, ← bitAt_digitalWord]
  rfl

/-- The decoded buttons are the digital word off the D-pad positions (R109). -/
theorem bitAt_wireDecode_buttons (p : Params) (f : Frame) (i : Fin 16) :
    bitAt (wireDecode p f).buttons i = (bitAt (digitalWord f) i &&
      !decide (i ∈ [p.dpadXPos, p.dpadXNeg, p.dpadYPos, p.dpadYNeg])) := by
  rw [wireDecode_buttons, bitAt_and, bitAt_not, bitAt_dpadMask]

theorem wireDecode_axis6 (p : Params) (f : Frame) : (wireDecode p f).axis 6 =
    (bitAt (digitalWord f) p.dpadXPos).toInt - (bitAt (digitalWord f) p.dpadXNeg).toInt :=
  Ternary.toInt_ofPair _ _

theorem wireDecode_axis7 (p : Params) (f : Frame) : (wireDecode p f).axis 7 =
    (bitAt (digitalWord f) p.dpadYPos).toInt - (bitAt (digitalWord f) p.dpadYNeg).toInt :=
  Ternary.toInt_ofPair _ _

/-- Settles O10: the complement of the wire word, read at each position. -/
theorem decodeDigital : Obligations.DecodeDigital :=
  fun p f => ⟨congrArg (~~~·) (wireWord_eq_shift_or f), bitAt_wireDecode_buttons p f,
    wireDecode_axis6 p f, wireDecode_axis7 p f⟩

/-- Settles O11: the D-pad positions are cleared from the buttons, and an axis field holds its range. -/
theorem decodedStateValid : Obligations.DecodedStateValid := by
  refine fun p f => ⟨?_, axis_range _⟩
  rw [Params.validState_iff]
  intro i hi
  rw [bitAt_wireDecode_buttons, decide_eq_true hi, Bool.not_true, Bool.and_false]

/-! ### Bytes 0 to 3 of an encoded state -/

/-- The bytes 0 to 3 by the masks and shifts of R111 to R114. -/
theorem wireEncode_bytes_masks (p : Params) (c : ControllerState) :
    (wireEncode p c).f0 = (c.a0.setWidth 8 &&& 0x3F) ||| ((c.a3.setWidth 8 &&& 0x18) <<< 3) ∧
    (wireEncode p c).f1 = (c.a1.setWidth 8 &&& 0x3F) ||| ((c.a3.setWidth 8 &&& 0x06) <<< 5) ∧
    (wireEncode p c).f2 = ((c.a3.setWidth 8 &&& 0x01) <<< 7) |||
      ((c.a2.setWidth 8 &&& 0x18) <<< 2) ||| (c.a4.setWidth 8 &&& 0x1F) ∧
    (wireEncode p c).f3 = ((c.a2.setWidth 8 &&& 0x07) <<< 5) ||| (c.a5.setWidth 8 &&& 0x1F) := by
  refine ⟨?_, ?_, ?_, ?_⟩ <;>
  · apply BitVec.eq_of_getLsbD_eq
    intro i hi
    simp only [wireEncode, BitVec.getLsbD_append, BitVec.getLsbD_extractLsb']
    interval_cases i <;> simp

/-- The bytes 0 to 3 by the bit slices of R111 to R114, as arithmetic on the axes. -/
theorem wireEncode_bytes_toNat (p : Params) (c : ControllerState) :
    (wireEncode p c).f0.toNat = c.a3.toNat / 8 * 64 + c.a0.toNat ∧
    (wireEncode p c).f1.toNat = c.a3.toNat / 2 % 4 * 64 + c.a1.toNat ∧
    (wireEncode p c).f2.toNat = c.a3.toNat % 2 * 128 + c.a2.toNat / 8 * 32 + c.a4.toNat ∧
    (wireEncode p c).f3.toNat = c.a2.toNat % 8 * 32 + c.a5.toNat := by
  simp only [wireEncode, toNat_append_add, ← toNat_div_mod]
  omega

/-- Settles O12: both forms of the four bytes. -/
theorem encodeAnalogBytes : Obligations.EncodeAnalogBytes := by
  intro p c
  obtain ⟨m0, m1, m2, m3⟩ := wireEncode_bytes_masks p c
  exact ⟨m0, m1, m2, m3, wireEncode_bytes_toNat p c⟩

/-! ### The wire word of an encoded state -/

theorem wireEncode_wireWord (p : Params) (c : ControllerState) :
    (wireEncode p c).wireWord = ~~~encodedDigitalWord p c :=
  (BitVec.extractLsb'_append_extractLsb'_eq_extractLsb' rfl).trans BitVec.extractLsb'_eq_self

/-- Whether a position is that of the direction a D-pad axis of the state points to. -/
def dpadPoints (p : Params) (c : ControllerState) (i : Fin 16) : Bool :=
  (c.a6 == .pos && decide (p.dpadXPos = i)) || (c.a6 == .neg && decide (p.dpadXNeg = i)) ||
    (c.a7 == .pos && decide (p.dpadYPos = i)) || (c.a7 == .neg && decide (p.dpadYNeg = i))

/-- The wire word of an encoded state, bit by bit (R115, R116). -/
theorem bitAt_wireEncode (p : Params) (c : ControllerState) (i : Fin 16) :
    bitAt (wireEncode p c).wireWord i = !((bitAt c.buttons i &&
      !decide (i ∈ [p.dpadXPos, p.dpadXNeg, p.dpadYPos, p.dpadYNeg])) || dpadPoints p c i) := by
  simp only [wireEncode_wireWord, encodedDigitalWord, bitAt_not, bitAt_orBit, bitAt_and,
    bitAt_dpadMask, dpadPoints, Bool.or_assoc]

/-- R8 item 1, pair by pair: X against X, X against Y, Y against Y. -/
theorem dpad_positions_ne {p : Params} (h : p.wf = true) :
    p.dpadXPos ≠ p.dpadXNeg ∧ p.dpadXPos ≠ p.dpadYPos ∧ p.dpadXPos ≠ p.dpadYNeg ∧
    p.dpadXNeg ≠ p.dpadYPos ∧ p.dpadXNeg ≠ p.dpadYNeg ∧ p.dpadYPos ≠ p.dpadYNeg := by
  simpa [and_assoc] using Params.wf_nodup h

/-- Under R8 a D-pad position's wire bit is 0 exactly when its axis points that way (R115). -/
theorem bitAt_wireEncode_dpad {p : Params} (h : p.wf = true) (c : ControllerState) :
    bitAt (wireEncode p c).wireWord p.dpadXPos = !(c.a6 == .pos) ∧
    bitAt (wireEncode p c).wireWord p.dpadXNeg = !(c.a6 == .neg) ∧
    bitAt (wireEncode p c).wireWord p.dpadYPos = !(c.a7 == .pos) ∧
    bitAt (wireEncode p c).wireWord p.dpadYNeg = !(c.a7 == .neg) := by
  obtain ⟨hx, hpp, hpn, hnp, hnn, hy⟩ := dpad_positions_ne h
  refine ⟨?_, ?_, ?_, ?_⟩
  · simp [bitAt_wireEncode, dpadPoints, hx.symm, hpp.symm, hpn.symm]
  · simp [bitAt_wireEncode, dpadPoints, hx, hnp.symm, hnn.symm]
  · simp [bitAt_wireEncode, dpadPoints, hpp, hnp, hy.symm]
  · simp [bitAt_wireEncode, dpadPoints, hpn, hnn, hy]

/-- Off the D-pad positions a wire bit is the complement of the button's (R115). -/
theorem bitAt_wireEncode_button {p : Params} (c : ControllerState) {i : Fin 16}
    (hi : i ∉ [p.dpadXPos, p.dpadXNeg, p.dpadYPos, p.dpadYNeg]) :
    bitAt (wireEncode p c).wireWord i = !bitAt c.buttons i := by
  have hpoints : dpadPoints p c i = false := by
    simp only [List.mem_cons, List.not_mem_nil, or_false, not_or] at hi
    obtain ⟨h1, h2, h3, h4⟩ := hi
    simp [dpadPoints, Ne.symm h1, Ne.symm h2, Ne.symm h3, Ne.symm h4]
  rw [bitAt_wireEncode, hpoints, decide_eq_false hi, Bool.not_false, Bool.and_true, Bool.or_false]

/-- A D-pad axis value names its direction (R20). -/
theorem beq_eq_decide_toInt : ∀ x : Ternary,
    (x == .pos) = decide (x.toInt = 1) ∧ (x == .neg) = decide (x.toInt = -1) := by
  rintro (_ | _ | _) <;> decide

/-- Settles O13: the D-pad bits come from the axes, every other bit from the buttons. -/
theorem encodeDigital : Obligations.EncodeDigital := by
  intro p c h
  obtain ⟨xp, xn, yp, yn⟩ := bitAt_wireEncode_dpad h c
  simp only [beq_eq_decide_toInt] at xp xn yp yn
  exact ⟨xp, xn, yp, yn, fun i => bitAt_wireEncode_button c⟩

/-! ### The round trip, state first -/

/-- Two states with the same analog axes. -/
structure SameAnalog (c d : ControllerState) : Prop where
  a0 : c.a0 = d.a0
  a1 : c.a1 = d.a1
  a2 : c.a2 = d.a2
  a3 : c.a3 = d.a3
  a4 : c.a4 = d.a4
  a5 : c.a5 = d.a5

/-- The analog axes come back, whatever the digital part and the parameters (R121). -/
theorem sameAnalog_decode_encode (p : Params) (c : ControllerState) :
    SameAnalog (wireDecode p (wireEncode p c)) c := by
  obtain ⟨n0, n1, n2, n3, n4, n5⟩ := wireDecode_axes_toNat p (wireEncode p c)
  obtain ⟨b0, b1, b2, b3⟩ := wireEncode_bytes_toNat p c
  constructor <;>
  · apply BitVec.eq_of_toNat_eq
    omega

theorem ofPair_beq : ∀ x : Ternary, Ternary.ofPair (x == .pos) (x == .neg) = x := by
  rintro (_ | _ | _) <;> decide

/-- The D-pad axes come back under R8 (R121). -/
theorem dpadAxes_decode_encode {p : Params} (h : p.wf = true) (c : ControllerState) :
    (wireDecode p (wireEncode p c)).a6 = c.a6 ∧ (wireDecode p (wireEncode p c)).a7 = c.a7 := by
  obtain ⟨xp, xn, yp, yn⟩ := bitAt_wireEncode_dpad h c
  simp only [wireDecode_a6, wireDecode_a7, xp, xn, yp, yn, Bool.not_not, ofPair_beq, and_self]

/-- The buttons of a valid state come back (R121). -/
theorem buttons_decode_encode {p : Params} {c : ControllerState} (h : p.validState c = true) :
    (wireDecode p (wireEncode p c)).buttons = c.buttons := by
  apply bitAt_ext
  intro i
  rw [bitAt_wireDecode_buttons]
  by_cases hi : i ∈ [p.dpadXPos, p.dpadXNeg, p.dpadYPos, p.dpadYNeg]
  · rw [(Params.validState_iff p c).1 h i hi, decide_eq_true hi, Bool.not_true, Bool.and_false]
  · rw [bitAt_digitalWord, bitAt_wireEncode_button c hi, decide_eq_false hi, Bool.not_not,
      Bool.not_false, Bool.and_true]

/-- A state is its analog axes, its D-pad axes and its buttons. -/
theorem controllerState_ext {c d : ControllerState} (ha : SameAnalog c d) (h6 : c.a6 = d.a6)
    (h7 : c.a7 = d.a7) (hb : c.buttons = d.buttons) : c = d := by
  obtain ⟨h0, h1, h2, h3, h4, h5⟩ := ha
  cases c
  cases d
  congr

/-- Settles O14: the analog axes, the D-pad axes and the buttons each come back. -/
theorem decodeEncodedState : Obligations.DecodeEncodedState := by
  intro p c hwf hvalid
  obtain ⟨h6, h7⟩ := dpadAxes_decode_encode hwf c
  exact controllerState_ext (sameAnalog_decode_encode p c) h6 h7 (buttons_decode_encode hvalid)

/-! ### The round trip, frame first -/

/-- Two frames with the same bytes 0 to 3. -/
structure SameAnalogBytes (f g : Frame) : Prop where
  f0 : f.f0 = g.f0
  f1 : f.f1 = g.f1
  f2 : f.f2 = g.f2
  f3 : f.f3 = g.f3

/-- Bytes 0 to 3 come back, whatever the digital bytes and the parameters (R122). -/
theorem sameAnalogBytes_encode_decode (p : Params) (f : Frame) :
    SameAnalogBytes (wireEncode p (wireDecode p f)) f := by
  obtain ⟨b0, b1, b2, b3⟩ := wireEncode_bytes_toNat p (wireDecode p f)
  obtain ⟨n0, n1, n2, n3, n4, n5⟩ := wireDecode_axes_toNat p f
  constructor <;>
  · apply BitVec.eq_of_toNat_eq
    omega

/-- A pair of wire bits through its D-pad axis and back: both 0 alone changes, to both 1 (R122). -/
theorem wirePair_of_ofPair : ∀ p n : Bool,
    (!(Ternary.ofPair (!p) (!n) == .pos)) = (p || (!p && !n)) ∧
    (!(Ternary.ofPair (!p) (!n) == .neg)) = (n || (!p && !n)) := by
  decide

/-- The D-pad wire bits come back, except that a pair of 0 comes back as a pair of 1 (R122). -/
theorem bitAt_encode_decode_dpad {p : Params} (h : p.wf = true) (f : Frame) :
    bitAt (wireEncode p (wireDecode p f)).wireWord p.dpadXPos
      = (bitAt f.wireWord p.dpadXPos || bothXPressed p f) ∧
    bitAt (wireEncode p (wireDecode p f)).wireWord p.dpadXNeg
      = (bitAt f.wireWord p.dpadXNeg || bothXPressed p f) ∧
    bitAt (wireEncode p (wireDecode p f)).wireWord p.dpadYPos
      = (bitAt f.wireWord p.dpadYPos || bothYPressed p f) ∧
    bitAt (wireEncode p (wireDecode p f)).wireWord p.dpadYNeg
      = (bitAt f.wireWord p.dpadYNeg || bothYPressed p f) := by
  obtain ⟨xp, xn, yp, yn⟩ := bitAt_wireEncode_dpad h (wireDecode p f)
  obtain ⟨pos6, neg6⟩ := wirePair_of_ofPair (bitAt f.wireWord p.dpadXPos) (bitAt f.wireWord p.dpadXNeg)
  obtain ⟨pos7, neg7⟩ := wirePair_of_ofPair (bitAt f.wireWord p.dpadYPos) (bitAt f.wireWord p.dpadYNeg)
  simp only [wireDecode_a6, wireDecode_a7] at xp xn yp yn
  exact ⟨xp.trans pos6, xn.trans neg6, yp.trans pos7, yn.trans neg7⟩

/-- Off the D-pad positions the wire bits come back (R122). -/
theorem bitAt_encode_decode_button {p : Params} (f : Frame) {i : Fin 16}
    (hi : i ∉ [p.dpadXPos, p.dpadXNeg, p.dpadYPos, p.dpadYNeg]) :
    bitAt (wireEncode p (wireDecode p f)).wireWord i = bitAt f.wireWord i := by
  rw [bitAt_wireEncode_button _ hi, bitAt_wireDecode_buttons, bitAt_digitalWord,
    decide_eq_false hi, Bool.not_false, Bool.and_true, Bool.not_not]

/-- The wire bits come back, except that a D-pad axis with both its bits 0 gets both 1 (R122). -/
theorem bitAt_encode_decode {p : Params} (h : p.wf = true) (f : Frame) (i : Fin 16) :
    bitAt (wireEncode p (wireDecode p f)).wireWord i =
      (bitAt f.wireWord i ||
        (bothXPressed p f && decide (i ∈ [p.dpadXPos, p.dpadXNeg])) ||
        (bothYPressed p f && decide (i ∈ [p.dpadYPos, p.dpadYNeg]))) := by
  by_cases hi : i ∈ [p.dpadXPos, p.dpadXNeg, p.dpadYPos, p.dpadYNeg]
  · obtain ⟨xp, xn, yp, yn⟩ := bitAt_encode_decode_dpad h f
    obtain ⟨-, hpp, hpn, hnp, hnn, -⟩ := dpad_positions_ne h
    simp only [List.mem_cons, List.not_mem_nil, or_false] at hi
    rcases hi with rfl | rfl | rfl | rfl
    · simp [xp, hpp, hpn]
    · simp [xn, hnp, hnn]
    · simp [yp, hpp.symm, hnp.symm]
    · simp [yn, hpn.symm, hnn.symm]
  · rw [bitAt_encode_decode_button f hi]
    simp only [List.mem_cons, List.not_mem_nil, or_false, not_or] at hi
    simp [hi]

/-- The wire word holds the two digital bytes (R44). -/
theorem wireWord_bytes (f : Frame) :
    f.wireWord.extractLsb' 8 8 = f.f4 ∧ f.wireWord.extractLsb' 0 8 = f.f5 := by
  simp (disch := decide) only [Frame.wireWord, BitVec.extractLsb'_append_eq_of_le,
    BitVec.extractLsb'_append_eq_of_add_le]
  exact ⟨BitVec.extractLsb'_eq_self, BitVec.extractLsb'_eq_self⟩

/-- A frame is its bytes 0 to 3 and its wire word. -/
theorem frame_ext {f g : Frame} (ha : SameAnalogBytes f g) (hw : f.wireWord = g.wireWord) :
    f = g := by
  obtain ⟨h0, h1, h2, h3⟩ := ha
  obtain ⟨f4, f5⟩ := wireWord_bytes f
  obtain ⟨g4, g5⟩ := wireWord_bytes g
  have h4 : f.f4 = g.f4 := by rw [← f4, ← g4, hw]
  have h5 : f.f5 = g.f5 := by rw [← f5, ← g5, hw]
  cases f
  cases g
  congr

/-- A wire bit that its pair's being both 0 does not change is in no such pair. -/
theorem not_both_of_fixed : ∀ a b : Bool, a = (a || (!a && !b)) → (!a && !b) = false := by
  decide

/-- A frame comes back exactly when no D-pad axis has both its bits pressed (R122). -/
theorem encode_decode_eq_iff {p : Params} (h : p.wf = true) (f : Frame) :
    wireEncode p (wireDecode p f) = f ↔ bothXPressed p f = false ∧ bothYPressed p f = false := by
  constructor
  · intro heq
    obtain ⟨xp, -, yp, -⟩ := bitAt_encode_decode_dpad h f
    rw [heq] at xp yp
    exact ⟨not_both_of_fixed _ _ xp, not_both_of_fixed _ _ yp⟩
  · rintro ⟨hx, hy⟩
    refine frame_ext (sameAnalogBytes_encode_decode p f) (bitAt_ext fun i => ?_)
    rw [bitAt_encode_decode h, hx, hy, Bool.false_and, Bool.false_and, Bool.or_false, Bool.or_false]

theorem not_both_ways : ∀ x : Ternary, (x == .pos && x == .neg) = false := by
  rintro (_ | _ | _) <;> decide

/-- A state's D-pad axis points one way at most, so Encode presses no pair together (R122). -/
theorem wireEncode_not_both {p : Params} (h : p.wf = true) (c : ControllerState) :
    bothXPressed p (wireEncode p c) = false ∧ bothYPressed p (wireEncode p c) = false := by
  obtain ⟨xp, xn, yp, yn⟩ := bitAt_wireEncode_dpad h c
  simp only [bothXPressed, bothYPressed, xp, xn, yp, yn, Bool.not_not, not_both_ways, and_self]

/-- Settles O15: bytes 0 to 3 whole, the wire word bit by bit, and Encode never presses a pair together. -/
theorem encodeDecodedFrame : Obligations.EncodeDecodedFrame := by
  intro p f c h
  obtain ⟨h0, h1, h2, h3⟩ := sameAnalogBytes_encode_decode p f
  exact ⟨h0, h1, h2, h3, bitAt_encode_decode h f, encode_decode_eq_iff h f,
    (encode_decode_eq_iff h (wireEncode p c)).2 (wireEncode_not_both h c)⟩

/-! ### Bytes 0 to 3 and the analog axes -/

/-- Encode's bytes 0 to 3 come from the analog axes alone (R123). -/
theorem SameAnalog.wireEncode {c d : ControllerState} (h : SameAnalog c d) (p : Params) :
    SameAnalogBytes (wireEncode p c) (wireEncode p d) := by
  obtain ⟨h0, h1, h2, h3, h4, h5⟩ := h
  constructor <;> simp only [Sys2Proof.wireEncode, h0, h1, h2, h3, h4, h5]

/-- Frames with the same decoded analog axes have the same bytes 0 to 3 (R123). -/
theorem sameAnalogBytes_of_decode {p : Params} {f g : Frame}
    (h : SameAnalog (wireDecode p f) (wireDecode p g)) : SameAnalogBytes f g := by
  obtain ⟨f0, f1, f2, f3⟩ := sameAnalogBytes_encode_decode p f
  obtain ⟨g0, g1, g2, g3⟩ := sameAnalogBytes_encode_decode p g
  obtain ⟨h0, h1, h2, h3⟩ := h.wireEncode p
  exact ⟨f0.symm.trans (h0.trans g0), f1.symm.trans (h1.trans g1), f2.symm.trans (h2.trans g2),
    f3.symm.trans (h3.trans g3)⟩

/-- Settles O16: Encode's bytes 0 to 3 are the inverse, as the two round trips say. -/
theorem analogBijection : Obligations.AnalogBijection := by
  refine fun p f4 f5 => ⟨?_, ?_⟩
  · rintro ⟨b0, b1, b2, b3⟩ ⟨b0', b1', b2', b3'⟩ heq
    simp only [Prod.mk.injEq] at heq
    obtain ⟨h0, h1, h2, h3, h4, h5⟩ := heq
    obtain ⟨e0, e1, e2, e3⟩ := sameAnalogBytes_of_decode ⟨h0, h1, h2, h3, h4, h5⟩
    exact Prod.ext e0 (Prod.ext e1 (Prod.ext e2 e3))
  · rintro ⟨a0, a1, a2, a3, a4, a5⟩
    let w := wireEncode p ⟨a0, a1, a2, a3, a4, a5, .zero, .zero, 0⟩
    obtain ⟨h0, h1, h2, h3, h4, h5⟩ : SameAnalog (wireDecode p w) _ := sameAnalog_decode_encode p _
    exact ⟨(w.f0, w.f1, w.f2, w.f3), Prod.ext h0 (Prod.ext h1 (Prod.ext h2 (Prod.ext h3
      (Prod.ext h4 h5))))⟩

/-! ### DECODE and ENCODE -/

theorem bitAt_allOnes (i : Fin 16) : bitAt (BitVec.allOnes 16) i = true := by
  revert i; decide

/-- A wire word of 0x0000 presses every position. -/
theorem digitalWord_of_zero {f : Frame} (h4 : f.f4 = 0) (h5 : f.f5 = 0) :
    digitalWord f = BitVec.allOnes 16 := by
  rw [digitalWord, Frame.wireWord, h4, h5]
  rfl

end Sys2Proof.Machine

namespace Sys2Proof.Laws

open Sys2Proof.Machine

/-- Settles O17: the response is the packed decoded state; with every bit pressed a D-pad axis is 1 - 1. -/
theorem execDecode : Obligations.ExecDecode := by
  refine ⟨fun _ _ => rfl, fun f p h4 h5 => ?_⟩
  have hd := digitalWord_of_zero h4 h5
  refine ⟨?_, ?_, ?_⟩
  · rw [wireDecode_buttons, hd, BitVec.allOnes_and]
  · rw [wireDecode_axis6, hd, bitAt_allOnes, bitAt_allOnes, sub_self]
  · rw [wireDecode_axis7, hd, bitAt_allOnes, bitAt_allOnes, sub_self]

/-- Settles O18: Unpack answers exactly on a valid operand, and else BAD_STATE is raised. -/
theorem execEncode : Obligations.ExecEncode := by
  refine fun w s => ⟨fun h => ?_, fun h => ?_⟩
  · obtain ⟨c, hc⟩ := unpack_of_legal h
    refine ⟨c, _, hc, rfl, ?_⟩
    exact congrArg Host.Outcome.next (withStateOperand_some hc s _)
  · refine ⟨_, statusRecord_records s.status .badState, ?_⟩
    exact congrArg Host.Outcome.next (withStateOperand_none (unpack_of_illegal h) s _)

end Sys2Proof.Laws
end

section
/-!
SUPPORT. The Diff engine family (spec/41_diff_engine.md R130 to R142): the order, the number and the influences
of a Diff's events; INIT, STEP and DECODE_STEP; the hold for queue space and what lifts it.
-/

namespace Sys2Proof.Machine

/-! ### The order of a Diff's events -/

theorem rank_of_axisEvent {last new : ControllerState} {k : Fin 8} {e : Event}
    (h : axisEvent last new k = some e) : e.rank = k.val := by
  obtain ⟨-, rfl⟩ := axisEvent_eq_some.1 h; rfl

theorem rank_of_buttonEvent {p : Params} {last new : ControllerState} {i : Fin 16} {e : Event}
    (h : buttonEvent p last new i = some e) : e.rank = 8 + i.val := by
  obtain ⟨-, rfl⟩ := buttonEvent_eq_some.1 h; rfl

/-- Both loops go upwards, and every slot stands before every button position (R131, R132, R134). -/
theorem pairwise_rank_changeEvents (p : Params) (last new : ControllerState) :
    (changeEvents p last new).Pairwise fun a b => a.rank < b.rank := by
  have hslots : slots.Pairwise (· < ·) := by decide
  have hpositions : positions.Pairwise (· < ·) := by decide
  refine List.pairwise_append.2 ⟨hslots.filterMap _ ?_, hpositions.filterMap _ ?_, ?_⟩
  · intro j k hjk a ha b hb
    rw [rank_of_axisEvent ha, rank_of_axisEvent hb]; exact hjk
  · intro i j hij a ha b hb
    rw [rank_of_buttonEvent ha, rank_of_buttonEvent hb]; exact Nat.add_lt_add_left hij 8
  · intro a ha b hb
    obtain ⟨k, -, hk⟩ := List.mem_filterMap.1 ha
    obtain ⟨i, -, hi⟩ := List.mem_filterMap.1 hb
    rw [rank_of_axisEvent hk, rank_of_buttonEvent hi]; omega

/-- Every change event comes before FrameComplete. -/
theorem rank_lt_of_mem_changeEvents {p : Params} {last new : ControllerState} {e : Event}
    (h : e ∈ changeEvents p last new) : e.rank < Event.frameComplete.rank := by
  rcases mem_changeEvents.1 h with ⟨k, -, rfl⟩ | ⟨i, -, -, rfl⟩
  · exact k.isLt.trans (by decide)
  · exact Nat.add_lt_add_left i.isLt 8

/-- Settles O30: the change events ascend, and FrameComplete, which ranks above them, is added last. -/
theorem diffOrder : Obligations.DiffOrder := by
  intro p last new
  unfold diff withFrameComplete
  split
  · exact .nil
  · refine List.pairwise_append.2 ⟨pairwise_rank_changeEvents p last new, List.pairwise_singleton _ _, ?_⟩
    intro a ha b hb
    rw [List.mem_singleton.1 hb]; exact rank_lt_of_mem_changeEvents ha

/-- Of two events of a Diff the earlier has the lower rank. -/
theorem rank_lt_of_sublist_diff {p : Params} {last new : ControllerState} {a b : Event}
    (h : [a, b].Sublist (diff p last new)) : a.rank < b.rank := by
  simpa only [List.pairwise_pair] using (diffOrder p last new).sublist h

/-- Settles O26: the axis loop's events are those of the changed slots, and a slot's rank is its number. -/
theorem diffAxisEvents : Obligations.DiffAxisEvents :=
  fun _ _ _ => ⟨fun _ _ => axisChanged_mem_diff, fun _ _ _ _ h => rank_lt_of_sublist_diff h⟩

/-! ### What a Diff says of buttons -/

/-- A position outside the event mask has no event (R132, R141). -/
theorem buttonChanged_not_mem_diff {p : Params} {i : Fin 16} (h : bitAt p.buttonEventMask i = false)
    (last new : ControllerState) (pressed : Bool) : .buttonChanged i pressed ∉ diff p last new := by
  intro hmem
  obtain ⟨hmask, -⟩ := buttonChanged_mem_diff.1 hmem
  exact Bool.false_ne_true (h.symm.trans hmask)

/-- R8 items 2 and 3: the mask has none of the four D-pad positions and not the reserved one. -/
theorem mask_clear_of_wf {p : Params} (hwf : p.wf = true) {i : Fin 16}
    (hi : i ∈ [p.dpadXPos, p.dpadXNeg, p.dpadYPos, p.dpadYNeg, p.reservedPos]) :
    bitAt p.buttonEventMask i = false := by
  have hcases : i ∈ [p.dpadXPos, p.dpadXNeg, p.dpadYPos, p.dpadYNeg] ∨ i = p.reservedPos := by
    simpa [or_assoc] using hi
  rcases hcases with hdpad | rfl
  · exact p.wf_mask hwf hdpad
  · exact (Params.wf_reserved hwf).2

/-- Settles O27: the button loop's events are those of the mask's changed positions, R8 keeps the D-pad and
reserved positions out of the mask, and a position's rank is its number after the slots. -/
theorem diffButtonEvents : Obligations.DiffButtonEvents :=
  fun _ last new => ⟨fun _ _ => buttonChanged_mem_diff,
    fun hwf _ hi => buttonChanged_not_mem_diff (mask_clear_of_wf hwf hi) last new,
    fun _ _ _ _ h => Nat.lt_of_add_lt_add_left (rank_lt_of_sublist_diff h)⟩

/-- The axis loop reads no button. -/
theorem axisEvent_with_buttons (last new : ControllerState) (b b' : DigitalWord) :
    axisEvent { last with buttons := b } { new with buttons := b' } = axisEvent last new := rfl

/-- The button loop reads the bits of the mask's positions alone. -/
theorem buttonEvent_congr {p : Params} {last new last' new' : ControllerState} {i : Fin 16}
    (h : bitAt p.buttonEventMask i = true →
      bitAt last'.buttons i = bitAt last.buttons i ∧ bitAt new'.buttons i = bitAt new.buttons i) :
    buttonEvent p last' new' i = buttonEvent p last new i := by
  unfold buttonEvent
  by_cases hmask : bitAt p.buttonEventMask i = true
  · obtain ⟨hlast, hnew⟩ := h hmask
    rw [hlast, hnew]
  · rw [if_neg fun hc => hmask hc.1, if_neg fun hc => hmask hc.1]

/-- Settles O28: no event is of a position outside the mask, and the loops read no other position's bit. -/
theorem unmaskedButtonsUnseen : Obligations.UnmaskedButtonsUnseen := by
  refine ⟨fun p last new i pressed hwf hi => ?_, fun p last new b b' h => ?_⟩
  · exact buttonChanged_not_mem_diff (hi.elim (p.wf_mask hwf) id) last new pressed
  · have hbuttons : buttonEvent p { last with buttons := b } { new with buttons := b' }
        = buttonEvent p last new := funext fun i => buttonEvent_congr (h i)
    rw [diff, changeEvents, axisEvent_with_buttons, hbuttons]; rfl

/-! ### When a Diff is empty, and how long it is -/

theorem diff_eq_nil {p : Params} {last new : ControllerState} :
    diff p last new = [] ↔ (∀ slot, new.axis slot = last.axis slot) ∧
      ∀ i, bitAt p.buttonEventMask i = true → bitAt new.buttons i = bitAt last.buttons i := by
  rw [diff, withFrameComplete_eq_nil, List.eq_nil_iff_forall_not_mem]
  simp only [mem_changeEvents]
  constructor
  · intro h
    exact ⟨fun slot => by_contra fun hne => h _ (.inl ⟨slot, hne, rfl⟩),
      fun i hi => by_contra fun hne => h _ (.inr ⟨i, hi, hne, rfl⟩)⟩
  · rintro ⟨haxes, hbuttons⟩ e (⟨k, hne, -⟩ | ⟨i, hi, hne, -⟩)
    · exact hne (haxes k)
    · exact hne (hbuttons i hi)

/-- A state differs from itself nowhere (R140). -/
theorem diff_self (p : Params) (c : ControllerState) : diff p c c = [] :=
  diff_eq_nil.2 ⟨fun _ => rfl, fun _ _ => rfl⟩

/-- Settles O29: a Diff is empty, or its change events and the one FrameComplete. -/
theorem diffFrameComplete : Obligations.DiffFrameComplete := by
  refine fun p last new => ⟨fun hne => ?_, diff_eq_nil⟩
  obtain ⟨ev, hdiff, hev, hfc⟩ := (oneFrame_diff p last new).resolve_left hne
  exact ⟨ev, hev, hdiff, hfc⟩

/-- A frame has at least one change event before its FrameComplete. -/
theorem length_ne_one_of_oneFrame {evs : List Event} (h : oneFrame evs) : evs.length ≠ 1 := by
  rcases h with rfl | ⟨ev, rfl, hne, -⟩
  · decide
  · have hpos := List.length_pos_of_ne_nil hne
    rw [List.length_append, List.length_singleton]; omega

/-- Under R8 five distinct positions, the D-pad's and the reserved one, are not in the mask (R9). -/
theorem popcount_mask_le {p : Params} (hwf : p.wf = true) : popcount p.buttonEventMask ≤ 11 := by
  have hnodup : (p.reservedPos :: [p.dpadXPos, p.dpadXNeg, p.dpadYPos, p.dpadYNeg]).Nodup :=
    List.nodup_cons.2 ⟨(Params.wf_reserved hwf).1, p.wf_nodup hwf⟩
  have hsub : p.reservedPos :: [p.dpadXPos, p.dpadXNeg, p.dpadYPos, p.dpadYNeg]
      ⊆ positions.filter fun i => !bitAt p.buttonEventMask i := by
    intro i hi
    have hclear : bitAt p.buttonEventMask i = false := by
      rcases List.mem_cons.1 hi with rfl | hdpad
      · exact (Params.wf_reserved hwf).2
      · exact p.wf_mask hwf hdpad
    exact List.mem_filter.2 ⟨mem_positions i, by rw [hclear]; rfl⟩
  have hfive := (List.subperm_of_subset hnodup hsub).length_le
  have hsplit := List.length_eq_length_filter_add (l := positions)
    fun i => bitAt p.buttonEventMask i
  rw [popcount, List.countP_eq_length_filter]
  simp only [List.length_cons, List.length_nil, positions] at hfive hsplit ⊢
  omega

/-- Settles O31: each slot and each position of the mask has at most one event, a change event never stands
alone, and R8 leaves at most eleven positions in the mask. -/
theorem diffCount : Obligations.DiffCount := by
  refine fun p last new =>
    ⟨length_diff_le p last new, length_ne_one_of_oneFrame (oneFrame_diff p last new), fun hwf => ?_⟩
  have hmask := popcount_mask_le hwf
  unfold Params.maxEventsPerStep
  omega

/-! ### INIT, STEP and DECODE_STEP -/

/-- A STATE operand that is not valid is BAD_STATE, whatever was to be done with it (R66, R202). -/
theorem withStateOperand_illegal {w : StateWord} (h : legalStateWord w = false) (s : State)
    (k : ControllerState → State) : ∃ st, recordsError s.status st 0b10 ∧
      withStateOperand w s k = { s with resp := s.resp ++ [0x02], status := st, parser := .idle } :=
  ⟨_, statusRecord_records s.status .badState, withStateOperand_none (unpack_of_illegal h) s k⟩

/-- With room a STEP looks at its operand (R135, R138). -/
theorem exec_step_of_room {s : State} (hroom : s.hasRoom = true) (w : StateWord) :
    exec (.step w) s = .next (withStateOperand w s fun c => (s.adopt c).respondOk []) :=
  congrArg Host.Outcome.next (whenRoom_room hroom)

theorem exec_step_adopts {s : State} {w : StateWord} {c : ControllerState} (hroom : s.hasRoom = true)
    (hc : unpack w = some c) : exec (.step w) s = .next ((s.adopt c).respondOk []) :=
  (exec_step_of_room hroom w).trans (congrArg _ (withStateOperand_some hc s _))

theorem exec_decodeStep_adopts {s : State} (hroom : s.hasRoom = true) (f : Frame) :
    exec (.decodeStep f) s = .next ((s.adopt (wireDecode s.params f)).respondOk []) :=
  congrArg Host.Outcome.next (whenRoom_room hroom)

/-- DECODE_STEP is STEP of the decoded state, held or not (R136). -/
theorem exec_decodeStep_eq_step (f : Frame) (s : State) :
    exec (.decodeStep f) s = exec (.step (pack (wireDecode s.params f))) s := by
  have hoperand := withStateOperand_some (unpack_pack (wireDecode s.params f)) s
    fun c => (s.adopt c).respondOk []
  exact congrArg (fun effect => Host.Outcome.next (whenRoom s effect)) hoperand.symm

/-- Adopting LAST again changes nothing, as its Diff is empty (R140). -/
theorem adopt_self (s : State) : s.adopt s.last = s := by
  rw [State.adopt, diff_self, List.append_nil]

/-- Settles O34: after the first STEP LAST is the operand, and adopting LAST again changes nothing. -/
theorem stepIdempotent : Obligations.StepIdempotent := by
  intro w s t hw hs ht hstep
  obtain ⟨c, hc⟩ := unpack_of_legal hw
  have hlast : t.last = c := by
    rw [exec_step_adopts hs hc] at hstep; cases hstep; rfl
  rw [exec_step_adopts ht hc, ← hlast, adopt_self]; rfl

/-- Settles O37: the head of a queue that is not empty goes to the sink. -/
theorem takeDeliversHead : Obligations.TakeDeliversHead := by
  intro s ev evs h
  simp [applyMove, State.sinkTake, h]

/-! ### The hold for queue space -/

/-- The room of R138 in its own form, with integer subtraction. -/
theorem hasRoom_iff {s : State} : s.hasRoom = true ↔ ∀ n, s.params.evqDepth = .bounded n →
    (n : Int) - s.evq.length ≥ s.params.maxEventsPerStep := by
  cases hdepth : s.params.evqDepth with
  | unbounded => simp [hasRoom_unbounded hdepth]
  | bounded n =>
    simp only [hasRoom_bounded hdepth, decide_eq_true_eq, QueueDepth.bounded.injEq, forall_eq']
    omega

/-- Without room a STEP or DECODE_STEP does nothing at all (R138, log 5, log 6). -/
theorem exec_held {i : Instr} {s : State} (hi : i.opcode = .step ∨ i.opcode = .decodeStep)
    (hroom : s.hasRoom = false) : exec i s = .next s := by
  cases i with
  | step w => exact congrArg Host.Outcome.next (whenRoom_held hroom)
  | decodeStep f => exact congrArg Host.Outcome.next (whenRoom_held hroom)
  | decode f => simp [Instr.opcode] at hi
  | encode w => simp [Instr.opcode] at hi
  | init w => simp [Instr.opcode] at hi
  | rdstatus => simp [Instr.opcode] at hi

/-- With room a STEP or DECODE_STEP answers with one byte and leaves PARSER Idle (R135, R136, R202). -/
theorem exec_answers {i : Instr} {s : State} (hi : i.opcode = .step ∨ i.opcode = .decodeStep)
    (hroom : s.hasRoom = true) :
    ∃ t b, exec i s = .next t ∧ t.parser = .idle ∧ t.resp = s.resp ++ [b] := by
  obtain ⟨t, ht⟩ := exec_next i s
  cases exec_effect ht with
  | held hno => exact absurd (hno.symm.trans hroom) Bool.false_ne_true
  | responds data _ hop => rcases hi with h | h <;> simp [h] at hop
  | raises => exact ⟨_, ErrorCode.badState.toByte, ht, rfl, rfl⟩
  | inits w c hinit => subst hinit; simp [Instr.opcode] at hi
  | adopts c => exact ⟨_, okByte, ht, rfl, rfl⟩

/-- Settles O38: the free space alone says whether the command is held or answers. -/
theorem holdForSpace : Obligations.HoldForSpace := by
  intro w f s i hi
  have hop : i.opcode = .step ∨ i.opcode = .decodeStep := by
    simp only [List.mem_cons, List.not_mem_nil, or_false] at hi
    exact hi.imp (congrArg Instr.opcode) (congrArg Instr.opcode)
  refine ⟨fun n hn hlt => exec_held hop ?_, fun h => exec_answers hop (hasRoom_iff.2 h)⟩
  exact Bool.eq_false_iff.2 fun hroom => (hasRoom_iff.1 hroom n hn).not_gt hlt

/-! ### A held command without TAKE and reset -/

/-- `t` is `s` but for moves done, command bytes the host has written, and response bytes it has read. -/
structure HostOnly (s t : State) : Prop where
  params : t.params = s.params
  parser : t.parser = s.parser
  last : t.last = s.last
  evq : t.evq = s.evq
  status : t.status = s.status
  toSink : t.toSink = s.toSink
  responses : t.toHost ++ t.resp = s.toHost ++ s.resp
  cmd : ∃ sent, t.cmd = s.cmd ++ sent
  sched : t.sched ⊆ s.sched

namespace HostOnly

theorem refl (s : State) : HostOnly s s :=
  ⟨rfl, rfl, rfl, rfl, rfl, rfl, rfl, ⟨[], (List.append_nil _).symm⟩, List.Subset.refl _⟩

theorem trans {s t u : State} (h : HostOnly s t) (h' : HostOnly t u) : HostOnly s u where
  params := h'.params.trans h.params
  parser := h'.parser.trans h.parser
  last := h'.last.trans h.last
  evq := h'.evq.trans h.evq
  status := h'.status.trans h.status
  toSink := h'.toSink.trans h.toSink
  responses := h'.responses.trans h.responses
  cmd := by
    obtain ⟨a, ha⟩ := h.cmd
    obtain ⟨b, hb⟩ := h'.cmd
    exact ⟨a ++ b, by rw [hb, ha, List.append_assoc]⟩
  sched := List.Subset.trans h'.sched h.sched

theorem moveDone {s : State} {m : Move} {ms : List Move} (h : s.sched = m :: ms) :
    HostOnly s { s with sched := ms } :=
  { refl s with sched := h ▸ List.subset_cons_self m ms }

theorem hostSend (s : State) (b : Byte) : HostOnly s (s.hostSend b) :=
  { refl s with cmd := ⟨[b], rfl⟩ }

theorem hostRecv (s : State) : HostOnly s s.hostRecv where
  params := s.hostRecv_params
  parser := s.hostRecv_parser
  last := s.hostRecv_last
  evq := s.hostRecv_evq
  status := s.hostRecv_status
  toSink := s.hostRecv_toSink
  responses := hostRecv_responses s
  cmd := ⟨[], by simp⟩
  sched := s.hostRecv_sched ▸ List.Subset.refl _

/-- Room is a matter of the parameters and of EVQ. -/
theorem hasRoom_eq {s t : State} (h : HostOnly s t) : t.hasRoom = s.hasRoom := by
  rw [State.hasRoom, State.hasRoom, h.params, h.evq]

end HostOnly

/-- The block's move on a held command changes nothing (R138, log 5). -/
theorem blockMove_held {s : State} {i : Instr} (hw : s.parser.waiting = some i)
    (hi : i.opcode = .step ∨ i.opcode = .decodeStep) (hroom : s.hasRoom = false) :
    blockMove s = .next s :=
  (blockMove_waiting hw).trans (exec_held hi hroom)

/-- While a command is held a step other than TAKE and reset is the host's alone. -/
theorem step_held {s : State} {i : Instr} (hwf : s.params.wf = true)
    (hw : s.parser.waiting = some i) (hi : i.opcode = .step ∨ i.opcode = .decodeStep)
    (hroom : s.hasRoom = false) (htake : Move.sinkTake ∉ s.sched) (hreset : Move.reset ∉ s.sched) :
    ∃ t, step s = .next t ∧ HostOnly s t := by
  rw [step_of_wf hwf]
  cases hs : s.sched with
  | nil => exact ⟨s, (runSchedule_nil hs).trans (blockMove_held hw hi hroom), .refl s⟩
  | cons m ms =>
    rw [runSchedule_cons hs]
    have hdone := HostOnly.moveDone hs
    cases m with
    | block => exact ⟨_, blockMove_held (s := { s with sched := ms }) hw hi hroom, hdone⟩
    | hostSend b => exact ⟨_, rfl, hdone.trans (.hostSend _ b)⟩
    | hostRecv => exact ⟨_, rfl, hdone.trans (.hostRecv _)⟩
    | sinkTake => exact absurd (hs ▸ List.mem_cons_self) htake
    | reset => exact absurd (hs ▸ List.mem_cons_self) hreset

/-- While a command is held steps other than TAKE and reset are the host's alone, and it stays held. -/
theorem runSteps_held {i : Instr} (hi : i.opcode = .step ∨ i.opcode = .decodeStep) (n : Nat)
    {s : State} (hwf : s.params.wf = true) (hw : s.parser.waiting = some i)
    (hroom : s.hasRoom = false) (htake : Move.sinkTake ∉ s.sched) (hreset : Move.reset ∉ s.sched) :
    ∃ t, runSteps n s = .next t ∧ HostOnly s t := by
  induction n generalizing s with
  | zero => exact ⟨s, runSteps_zero s, .refl s⟩
  | succ n ih =>
    obtain ⟨s', hstep, hs'⟩ := step_held hwf hw hi hroom htake hreset
    obtain ⟨t, hrun, ht⟩ := ih (hs'.params ▸ hwf) (hs'.parser ▸ hw) (hs'.hasRoom_eq.trans hroom)
      (fun h => htake (hs'.sched h)) (fun h => hreset (hs'.sched h))
    exact ⟨t, (runSteps_succ hstep).trans hrun, hs'.trans ht⟩

/-- Settles O39: by induction on the steps, each of which is the host's alone and keeps the hold. -/
theorem heldWithoutTakeForever : Obligations.HeldWithoutTakeForever := by
  intro n s i hwf hw hi hroom htake hreset
  obtain ⟨t, hrun, h⟩ := runSteps_held hi n hwf hw hroom htake hreset
  exact ⟨t, hrun, h.parser, h.last, h.evq, h.status, h.toSink, h.responses, h.cmd⟩

/-! ### TAKEs that lift the hold -/

/-- `s` after `k` TAKEs, with the moves `ms` left. -/
def State.afterTakes (s : State) (k : Nat) (ms : List Move) : State :=
  { s with evq := s.evq.drop k, toSink := s.toSink ++ s.evq.take k, sched := ms }

theorem afterTakes_zero (s : State) : s.afterTakes 0 s.sched = s := by
  simp [State.afterTakes]

/-- A TAKE and then `k` more are `k + 1` of them, on an empty queue too (R139). -/
theorem afterTakes_sinkTake (s : State) (k : Nat) (ms ms' : List Move) :
    (State.sinkTake { s with sched := ms' }).afterTakes k ms = s.afterTakes (k + 1) ms := by
  cases h : s.evq <;> simp [State.afterTakes, State.sinkTake, h]

/-- The steps of `k` scheduled TAKEs. -/
theorem runSteps_takes {k m : Nat} {ms : List Move} {s : State} (hwf : s.params.wf = true)
    (hs : s.sched = List.replicate k .sinkTake ++ ms) :
    runSteps (k + m) s = runSteps m (s.afterTakes k ms) := by
  induction k generalizing s with
  | zero =>
    obtain rfl : s.sched = ms := hs
    rw [afterTakes_zero, Nat.zero_add]
  | succ k ih =>
    have hstep := (step_of_wf hwf).trans (runSchedule_cons hs)
    rw [Nat.add_right_comm, runSteps_succ hstep, ih (by simpa using hwf) (by simp),
      afterTakes_sinkTake]

/-- Settles O40: after the TAKEs there is room, and the block's move executes the command that waits. -/
theorem takesLiftHold : Obligations.TakesLiftHold := by
  intro s i k n ms hwf hw hi hdepth hk hfree hs
  have hroom : (s.afterTakes k ms).hasRoom = true := by
    rw [hasRoom_bounded (s := s.afterTakes k ms) hdepth, decide_eq_true_eq]
    simp only [State.afterTakes, List.length_drop]
    omega
  obtain ⟨t, b, hexec, hidle, hresp⟩ := exec_answers hi hroom
  refine ⟨t, b, ?_, hexec, hidle, hresp⟩
  calc runSteps (k + 1) s
      = step (s.afterTakes k (.block :: ms)) := by rw [runSteps_takes hwf hs, runSteps_one]
    _ = blockMove (s.afterTakes k ms) :=
      step_blockTurn (s := s.afterTakes k (.block :: ms)) hwf (.inl rfl)
    _ = exec i (s.afterTakes k ms) := blockMove_waiting (s := s.afterTakes k ms) hw
    _ = .next t := hexec

end Sys2Proof.Machine

namespace Sys2Proof.Laws

open Sys2Proof.Machine

/-- Settles O19: Unpack answers exactly on a valid operand, and else BAD_STATE is raised; room is not asked. -/
theorem execInit : Obligations.ExecInit := by
  refine fun w s => ⟨fun h => ?_, fun h => ?_⟩
  · obtain ⟨c, hc⟩ := unpack_of_legal h
    exact ⟨c, hc, congrArg Host.Outcome.next (withStateOperand_some hc s _)⟩
  · obtain ⟨st, hst, heq⟩ := withStateOperand_illegal h s fun c => (s.setLast c).respondOk []
    exact ⟨st, hst, congrArg Host.Outcome.next heq⟩

/-- Settles O20: with room the operand is looked at, and a valid one adopted. -/
theorem execStep : Obligations.ExecStep := by
  refine fun w s hroom => ⟨fun h => ?_, fun h => ?_⟩
  · obtain ⟨c, hc⟩ := unpack_of_legal h
    exact ⟨c, hc, exec_step_adopts hroom hc⟩
  · obtain ⟨st, hst, heq⟩ := withStateOperand_illegal h s fun c => (s.adopt c).respondOk []
    exact ⟨st, hst, (exec_step_of_room hroom w).trans (congrArg _ heq)⟩

/-- Settles O21: with room the decoded state is adopted, it is valid, and Unpack of its Pack gives it back
to a STEP. -/
theorem execDecodeStep : Obligations.ExecDecodeStep :=
  fun f s => ⟨fun hroom => exec_decodeStep_adopts hroom f, (decodedStateValid s.params f).1,
    exec_decodeStep_eq_step f s⟩

end Sys2Proof.Laws
end

section
/-!
SUPPORT. The control family (spec/42_control.md R160, R161): the byte RDSTATUS reads, which tells the first
of any errors, and the effect of a reserved opcode byte.
-/

namespace Sys2Proof.Machine

/-! ### What RDSTATUS reads -/

/-- The byte read is bits 2:0 of STATUS: FIRST_CODE above ERR (R27, R160). -/
theorem toNat_statusRead (st : Byte) : (statusRead st).toNat = st.toNat % 8 := by
  revert st; decide

/-- A cleared STATUS reads as it is (R240). -/
theorem statusRead_zero : statusRead 0x00 = 0x00 := by
  decide

/-- The byte read depends on ERR and FIRST_CODE alone, which later errors keep (R27: sticky). -/
theorem statusRead_foldl_statusRecord {st : Byte} (h : statusErr st = true) (later : List ErrorCode) :
    statusRead (later.foldl statusRecord st) = statusRead st := by
  induction later generalizing st with
  | nil => rfl
  | cons code later ih =>
    obtain ⟨herr, hfirst⟩ := statusRecord_sticky st code h
    rw [List.foldl_cons, ih herr, statusRead, herr, hfirst, statusRead, h]

/-- After errors from a cleared STATUS the byte read tells the first of them (R160). -/
theorem statusRead_after_errors (first : ErrorCode) (later : List ErrorCode) :
    statusRead ((first :: later).foldl statusRecord 0x00)
      = if first = .illegalOp then 0x03 else 0x05 := by
  rw [List.foldl_cons, statusRead_foldl_statusRecord (statusRecord_records 0x00 first).1]
  cases first <;> rfl

/-! ### A reserved opcode byte -/

/-- An error between commands leaves PARSER as it is (R202). -/
theorem raiseError_of_idle {s : State} (h : s.parser = .idle) (code : ErrorCode) :
    s.raiseError code =
      { s with resp := s.resp ++ [code.toByte], status := statusRecord s.status code } := by
  rw [State.raiseError, ← h]

/-- The block received a reserved byte between commands: error ILLEGAL_OP (R161). -/
theorem receiveByte_reserved {s : State} {b : Byte} (hp : s.parser = .idle)
    (hb : Opcode.ofByte b = none) : receiveByte b s = .next (s.raiseError .illegalOp) := by
  have hd : decode (s.parser.received ++ [b]) = .reserved b [] := by
    rw [hp]; exact decode_cons_of_reserved hb []
  simp only [receiveByte, hd, execReserved]

end Sys2Proof.Machine

namespace Sys2Proof.Laws

open Sys2Proof.Machine

/-- Settles O22: the byte is bits 2:0 of STATUS, where errors after the first change nothing. -/
theorem execRdstatus : Obligations.ExecRdstatus := by
  refine ⟨fun s => ⟨_, toNat_statusRead s.status, rfl⟩, fun p => ⟨_, rfl, ?_⟩, ?_⟩
  · exact congrArg (fun b => [okByte, b]) statusRead_zero
  · intro first later s hs
    refine ⟨_, rfl, ?_⟩
    rw [State.respondOk_resp, hs, statusRead_after_errors]
    rfl

/-- Settles O24: an idle PARSER holds no command, so the byte is received, and it names no opcode. -/
theorem reservedOpcodeEffect : Obligations.ReservedOpcodeEffect := by
  intro b rest s hp hc hb
  have hw : s.parser.waiting = none := by rw [hp]; rfl
  refine ⟨_, statusRecord_records s.status .illegalOp, ?_⟩
  calc blockMove s
      = receiveByte b { s with cmd := rest } := blockMove_receive hw hc
    _ = .next (State.raiseError { s with cmd := rest } .illegalOp) :=
      receiveByte_reserved hp (Opcode.ofByte_eq_none.2 hb)
    _ = _ := congrArg _ (raiseError_of_idle (s := { s with cmd := rest }) hp _)

end Sys2Proof.Laws
end

section
/-!
SUPPORT. The exceptions family (spec/60_exceptions.md R201 to R210): which commands raise an error and what
it leaves, a TAKE beside a command's execution, and the block that has nothing to do.
-/

namespace Sys2Proof.Machine

/-! ### Commands that raise -/

/-- Only ENCODE, INIT and STEP have an operand that can be invalid (R64, R66). -/
theorem opcode_of_not_wellFormed {i : Instr} (h : i.wellFormed = false) :
    i.opcode = .encode ∨ i.opcode = .init ∨ i.opcode = .step := by
  cases i with
  | encode w => exact .inl rfl
  | init w => exact .inr (.inl rfl)
  | step w => exact .inr (.inr rfl)
  | decode f => cases h
  | decodeStep f => cases h
  | rdstatus => cases h

/-- A command with an invalid operand raises BAD_STATE, a STEP if it has room (R66, R201, R138). -/
theorem exec_of_not_wellFormed {i : Instr} {s : State} (h : i.wellFormed = false)
    (hroom : i.opcode = .step → s.hasRoom = true) : exec i s = .next (s.raiseError .badState) := by
  cases i with
  | encode w => exact congrArg Host.Outcome.next (withStateOperand_none (unpack_of_illegal h) s _)
  | init w => exact congrArg Host.Outcome.next (withStateOperand_none (unpack_of_illegal h) s _)
  | step w =>
    rw [exec_step_of_room (hroom rfl), withStateOperand_none (unpack_of_illegal h)]
  | decode f => cases h
  | decodeStep f => cases h
  | rdstatus => cases h

/-- Settles O23: the operand alone makes each of the three commands raise BAD_STATE. -/
theorem badStateEffect : Obligations.BadStateEffect := by
  intro w s hw hroom
  refine ⟨_, statusRecord_records s.status .badState, fun i hi => ?_⟩
  have hill : i.wellFormed = false := by
    simp only [List.mem_cons, List.not_mem_nil, or_false] at hi
    rcases hi with rfl | rfl | rfl <;> exact hw
  exact exec_of_not_wellFormed hill fun _ => hroom

/-- An execution raises BAD_STATE on an invalid operand, or leaves STATUS and sends nothing or an OK
response (R71, R201). -/
theorem ExecEffect.raises_or_ok {i : Instr} {s t : State} (h : ExecEffect i s t) :
    (i.wellFormed = false ∧ t = s.raiseError .badState) ∨
    (t.status = s.status ∧ (t.resp = s.resp ∨ ∃ data, t.resp = s.resp ++ okByte :: data)) := by
  cases h with
  | raises hi => exact .inl ⟨hi, rfl⟩
  | held => exact .inr ⟨rfl, .inl rfl⟩
  | responds data => exact .inr ⟨rfl, .inr ⟨data, rfl⟩⟩
  | inits => exact .inr ⟨rfl, .inr ⟨[], rfl⟩⟩
  | adopts => exact .inr ⟨rfl, .inr ⟨[], rfl⟩⟩

/-- Sending nothing or an OK response is not sending an error byte (R72). -/
theorem append_errorByte_ne {sent resp : List Byte} {b : Byte} (hb : b ≠ okByte)
    (h : sent = resp ∨ ∃ data, sent = resp ++ okByte :: data) : sent ≠ resp ++ [b] := by
  rintro rfl
  rcases h with h | ⟨data, h⟩
  · simp at h
  · exact hb (List.cons.inj (List.append_cancel_left h)).1

/-- Settles O25: an execution that does not raise leaves STATUS, and its response begins with OK. -/
theorem onlyInvalidOperandsRaise : Obligations.OnlyInvalidOperandsRaise := by
  intro i s t h hraised
  rcases (exec_effect h).raises_or_ok with ⟨hi, rfl⟩ | ⟨hst, hresp⟩
  · exact ⟨hi, opcode_of_not_wellFormed hi, rfl⟩
  · rcases hraised with hne | h1 | h2
    · exact absurd hst hne
    · exact absurd h1 (append_errorByte_ne (by decide) hresp)
    · exact absurd h2 (append_errorByte_ne (by decide) hresp)

/-! ### A TAKE beside a command -/

/-- A TAKE makes room and never uses it up (R138, R139). -/
theorem hasRoom_sinkTake {s : State} (h : s.hasRoom = true) : s.sinkTake.hasRoom = true := by
  refine hasRoom_iff.2 fun n hn => ?_
  rw [State.sinkTake_params] at hn
  have hfree := hasRoom_iff.1 h n hn
  rw [State.sinkTake_params, State.sinkTake_evq, List.length_tail]
  omega

theorem respondOk_sinkTake (s : State) (data : List Byte) :
    s.sinkTake.respondOk data = (s.respondOk data).sinkTake := by
  cases hq : s.evq <;> simp [State.sinkTake, State.respondOk, hq]

theorem raiseError_sinkTake (s : State) (code : ErrorCode) :
    s.sinkTake.raiseError code = (s.raiseError code).sinkTake := by
  cases hq : s.evq <;> simp [State.sinkTake, State.raiseError, hq]

theorem setLast_sinkTake (s : State) (c : ControllerState) :
    s.sinkTake.setLast c = (s.setLast c).sinkTake := by
  cases hq : s.evq <;> simp [State.sinkTake, State.setLast, hq]

/-- The events go behind those in EVQ, so a TAKE before or after them takes the same one (R135). From an
empty EVQ only the TAKE after them takes one. -/
theorem adopt_sinkTake {s : State} (hq : s.evq ≠ []) (c : ControllerState) :
    s.sinkTake.adopt c = (s.adopt c).sinkTake := by
  obtain ⟨ev, rest, hev⟩ := List.exists_cons_of_ne_nil hq
  simp [State.sinkTake, State.adopt, hev]

/-- A STATE operand's use commutes with a TAKE when what is done with a valid one does. -/
theorem withStateOperand_sinkTake (w : StateWord) (s : State) {k k' : ControllerState → State}
    (hk : ∀ c, k' c = (k c).sinkTake) :
    withStateOperand w s.sinkTake k' = (withStateOperand w s k).sinkTake :=
  withStateOperand_rel (R := fun t t' => t' = t.sinkTake) w hk (raiseError_sinkTake s .badState)

/-- The answer of STEP and DECODE_STEP commutes with a TAKE of an event that was there before. -/
theorem adopt_respondOk_sinkTake {s : State} (hq : s.evq ≠ []) (c : ControllerState) :
    (s.sinkTake.adopt c).respondOk [] = ((s.adopt c).respondOk []).sinkTake := by
  rw [adopt_sinkTake hq, respondOk_sinkTake]

/-- Settles O56: a response and LAST do not touch EVQ, new events go behind its head, and with room before
the TAKE there is room after it. -/
theorem takeCommutes : Obligations.TakeCommutes := by
  intro i s t hq hroom h
  cases i with
  | decode f =>
    cases h
    exact congrArg Host.Outcome.next (by rw [State.sinkTake_params, respondOk_sinkTake])
  | encode w =>
    cases h
    exact congrArg Host.Outcome.next (withStateOperand_sinkTake w s fun c => by
      rw [State.sinkTake_params, respondOk_sinkTake])
  | init w =>
    cases h
    exact congrArg Host.Outcome.next (withStateOperand_sinkTake w s fun c => by
      rw [setLast_sinkTake, respondOk_sinkTake])
  | step w =>
    have hs : s.hasRoom = true := hroom.resolve_right fun hne => hne.1 rfl
    rw [exec_step_of_room hs] at h
    cases h
    rw [exec_step_of_room (hasRoom_sinkTake hs)]
    exact congrArg Host.Outcome.next
      (withStateOperand_sinkTake w s (adopt_respondOk_sinkTake hq))
  | decodeStep f =>
    have hs : s.hasRoom = true := hroom.resolve_right fun hne => hne.2 rfl
    rw [exec_decodeStep_adopts hs] at h
    cases h
    rw [exec_decodeStep_adopts (hasRoom_sinkTake hs), State.sinkTake_params,
      adopt_respondOk_sinkTake hq]
  | rdstatus =>
    cases h
    exact congrArg Host.Outcome.next (by rw [State.sinkTake_status, respondOk_sinkTake])

/-! ### The block that waits -/

theorem blockMove_idle {s : State} (hw : s.parser.waiting = none) (hc : s.cmd = []) :
    blockMove s = .next s := by
  simp [blockMove, hw, hc]

/-- Settles O45: the step is the block's move, which has no command to execute and no byte to receive. -/
theorem idleBlockWaits : Obligations.IdleBlockWaits :=
  fun s ms hwf ht hc hw =>
    (step_blockTurn hwf ht).trans (blockMove_idle (s := { s with sched := ms }) hw hc)

end Sys2Proof.Machine
end

section
/-!
SUPPORT. The reset family (spec/70_reset_and_hazards.md R240): what a reset in the schedule does to a state.
-/

namespace Sys2Proof.Machine

/-! ### A reset between two steps -/

/-- The reset's move is `State.assertReset`, from any state (R240). -/
theorem applyMove_reset (s : State) : applyMove .reset s = .next s.assertReset := rfl

/-- Settles O47: a reset always answers, and each of the five items has its reset value afterwards. -/
theorem resetEffect : Obligations.ResetEffect :=
  fun s => ⟨s.assertReset, applyMove_reset s, s.assertReset_last, s.assertReset_evq,
    s.assertReset_status, s.assertReset_parser, s.assertReset_resp⟩

end Sys2Proof.Machine
end
